-- ==== Sys2Proof/Word.lean ====
section
/-! DEFINITION. The sizes of 00_scope.md R5 that the types carry: bytes, 32-bit words, the 72-bit command word. -/

namespace Sys2Proof

/-- One byte: a cell of `BUF`, a payload byte, a digest byte (20_memory.md R25). -/
abbrev Byte := BitVec 8

/-- A state word, schedule word or working variable, `WORD_BITS` = 32 (00_scope.md R5). -/
abbrev Word := BitVec 32

/-- A command word as it stands on the port `cmd` (30_encoding.md R42). -/
abbrev CommandWord := BitVec 72

end Sys2Proof
end

