-- ==== Sys2Proof/Machine/ByteOrder.lean ====
section
/-! DEFINITION. The byte-order primitives of 00_scope.md R9. Byte order is decided here and nowhere else
(20_memory.md R26 to R30). -/

namespace Sys2Proof.Machine

/-- The number a big-endian byte sequence stands for, first byte most significant. -/
def beNat (bytes : List Byte) : Nat :=
  bytes.foldl (fun acc b => acc * 256 + b.toNat) 0

/-- `be32(b0, b1, b2, b3)` = `b0*2^24 + b1*2^16 + b2*2^8 + b3` (00_scope.md R9; 20_memory.md R26). -/
def be32 (b0 b1 b2 b3 : Byte) : Word :=
  BitVec.ofNat 32 (b0.toNat * 2 ^ 24 + b1.toNat * 2 ^ 16 + b2.toNat * 2 ^ 8 + b3.toNat)

/-- `be32_bytes(w)`: the four bytes of a word, most significant first (00_scope.md R9; 20_memory.md R27). -/
def be32Bytes (w : Word) : List Byte :=
  [w.extractLsb' 24 8, w.extractLsb' 16 8, w.extractLsb' 8 8, w.extractLsb' 0 8]

/-- `be64_bytes(v)`: the eight bytes of a 64-bit value, most significant first (00_scope.md R9; 20_memory.md R28). -/
def be64Bytes (v : BitVec 64) : List Byte :=
  [v.extractLsb' 56 8, v.extractLsb' 48 8, v.extractLsb' 40 8, v.extractLsb' 32 8,
   v.extractLsb' 24 8, v.extractLsb' 16 8, v.extractLsb' 8 8, v.extractLsb' 0 8]

/-- `zeros(n)`: `n` bytes of 0x00 (00_scope.md R8). -/
def zeros (n : Nat) : List Byte := List.replicate n 0

end Sys2Proof.Machine
end

