-- ==== Sys2Proof/Syntax.lean ====
section
/-! DEFINITION. The command set: one constructor per row of spec/opcode_table.json (30_encoding.md R44). -/

namespace Sys2Proof

/-- The three host commands. NEW and HEXDIGEST have no opcode (30_encoding.md R44). -/
inductive Instr where
  /-- RESET, `OP` = 0x01, no operand (30_encoding.md R45). -/
  | reset
  /-- WRITE, `OP` = 0x02; `n` is `LEN64`, the number of payload bytes, "a natural number below 2^64"
  (30_encoding.md R43, R46). The payload itself is not part of the command word (R43). -/
  | write (n : Nat)
  /-- DIGEST, `OP` = 0x03, no operand (30_encoding.md R47). -/
  | digest
deriving DecidableEq, Repr

end Sys2Proof
end

