-- ==== Sys2Proof/WellFormed.lean ====
section
/-! DEFINITION. The one check a command can fail: its byte count must fit the field `LEN64`. -/

namespace Sys2Proof

/-- `LEN64` is 64 bits wide, unsigned, not scaled (30_encoding.md R43): a WRITE has a word exactly when its count fits.
RESET and DIGEST take no operand. -/
def Instr.wf : Instr → Bool
  | .reset => true
  | .write n => decide (n < 2 ^ 64)
  | .digest => true

end Sys2Proof
end

