-- ==== Sys2Proof/Decode.lean ====
section
/-! DEFINITION. Decoding and encoding of command words (30_encoding.md R42 to R48; spec/opcode_table.json). Decoding is
total: every word is a command or is illegal, by name. -/

namespace Sys2Proof

/-- Why a word or a byte string is no command (30_encoding.md R48). -/
inductive DecodeError where
  /-- `OP` = 0x00 or 0x04 to 0xFF: no row of the opcode map. -/
  | reservedOpcode (op : Byte)
  /-- `OP` = 0x01 or 0x03 with `LEN64` not zero. -/
  | operandNotZero (op : Byte)
  /-- Fewer than the nine bytes of a command word (30_encoding.md R42: there is one command length). -/
  | truncated (got : Nat)
deriving DecidableEq, Repr

/-- The field `OP` = `cmd[71:64]` (30_encoding.md R42). -/
def opField (c : CommandWord) : Byte := c.extractLsb' 64 8

/-- The field `LEN64` = `cmd[63:0]` (30_encoding.md R42). -/
def len64Field (c : CommandWord) : BitVec 64 := c.extractLsb' 0 64

/-- One row of the opcode map: a word `c` selects it when `c AND mask = pattern` (30_encoding.md R44). -/
structure OpcodeRow where
  pattern : CommandWord
  mask : CommandWord
deriving DecidableEq, Repr

/-- Row RESET of the opcode map (30_encoding.md R44). -/
def resetRow : OpcodeRow := ⟨0x010000000000000000, 0xFFFFFFFFFFFFFFFFFF⟩

/-- Row WRITE of the opcode map (30_encoding.md R44). -/
def writeRow : OpcodeRow := ⟨0x020000000000000000, 0xFF0000000000000000⟩

/-- Row DIGEST of the opcode map (30_encoding.md R44). -/
def digestRow : OpcodeRow := ⟨0x030000000000000000, 0xFFFFFFFFFFFFFFFFFF⟩

/-- Whether a word selects a row. -/
def OpcodeRow.selects (r : OpcodeRow) (c : CommandWord) : Bool := c &&& r.mask == r.pattern

/-- Which of the illegal encodings of 30_encoding.md R48 a word that selects no row is. -/
def illegalReason (c : CommandWord) : DecodeError :=
  if opField c = 0x01 ∨ opField c = 0x03 then .operandNotZero (opField c) else .reservedOpcode (opField c)

/-- The decoder on the command word, in the order of 42_engine_commands.md R85. -/
def decodeWord (c : CommandWord) : Except DecodeError Instr :=
  if resetRow.selects c then .ok .reset
  else if writeRow.selects c then .ok (.write (len64Field c).toNat)
  else if digestRow.selects c then .ok .digest
  else .error (illegalReason c)

/-- The command word of nine bytes, `OP` first, then `LEN64` most significant byte first (30_encoding.md R42). -/
def wordOfBytes (bytes : List Byte) : CommandWord := BitVec.ofNat 72 (Machine.beNat bytes)

/-- The decoder on a byte-wide transport: nine bytes are one command word, the rest is returned (30_encoding.md R42). -/
def decodeBytes (bytes : List Byte) : Except DecodeError (Instr × List Byte) :=
  if bytes.length < 9 then .error (.truncated bytes.length)
  else
    match decodeWord (wordOfBytes (bytes.take 9)) with
    | .ok i => .ok (i, bytes.drop 9)
    | .error e => .error e

/-- The field `OP` of a command's word (30_encoding.md R44). -/
def Instr.opcode : Instr → Byte
  | .reset => 0x01
  | .write _ => 0x02
  | .digest => 0x03

/-- The field `LEN64` of a command's word (30_encoding.md R45 to R47). A count of 2^64 or more has no word (R46); that the
encoder then keeps the count modulo 2^64 is the model's choice (log entry 13), and such a command is not well formed. -/
def Instr.len64 : Instr → BitVec 64
  | .reset => 0
  | .write n => BitVec.ofNat 64 n
  | .digest => 0

/-- The encoder: `OP` in bits 71:64, `LEN64` in bits 63:0 (30_encoding.md R42). -/
def encode (i : Instr) : CommandWord := i.opcode ++ i.len64

/-- The encoder on a byte-wide transport: `[OP] ++ be64_bytes(LEN64)` (30_encoding.md R42). -/
def encodeBytes (i : Instr) : List Byte := i.opcode :: Machine.be64Bytes i.len64

/-- The command word of a table row's number: spec/opcode_table.json gives a row one 72-bit word whose `OP` is bits 71:64
and whose `LEN64` is bits 63:0 (its "source_fields"), so the number is the word as it stands on the port; bits above
`nbits` are zero. -/
def tableWord (nbits w : Nat) : CommandWord := BitVec.ofNat 72 (w % 2 ^ nbits)

/-- The instruction the decoder reads from a table row's word; none where it refuses it, or where the word would be
longer than the one command length (30_encoding.md R42). -/
def decodeTableWord (nbits w : Nat) : Option Instr :=
  if nbits ≤ 72 then (decodeWord (tableWord nbits w)).toOption else none

end Sys2Proof
end

