-- ==== Sys2Proof/Machine/Arith.lean ====
section
/-! DEFINITION. The 32-bit arithmetic of the compression function (41_compression.md R68 to R70). It sets no flag: "overflow
is expected arithmetic, not an error" (R68; 60_exceptions.md R108). -/

namespace Sys2Proof.Machine

/-- `add32(x, y) = (x + y) mod 2^32`, the carry out of bit 31 discarded (41_compression.md R68). -/
def add32 (x y : Word) : Word := BitVec.ofNat 32 (x.toNat + y.toNat)

/-- `rotl32(x, n)`, circular left shift by `n` bits, `0 < n < 32`: `((x << n) mod 2^32) OR (x >> (32 - n))`
(41_compression.md R69). -/
def rotl32 (x : Word) (n : Nat) : Word := (x <<< n) ||| (x >>> (32 - n))

end Sys2Proof.Machine
end

