-- ==== Sys2Proof/Machine/Chain.lean ====
section
/-! DEFINITION. The chaining value: five words `H[0..4]` and the constant `IV` (10_state.md R10, R11). -/

namespace Sys2Proof.Machine

/-- Five unsigned 32-bit words; `h<i>` is `H[i]`, "there are no other names or aliases" (10_state.md R10). -/
structure Chain where
  h0 : Word
  h1 : Word
  h2 : Word
  h3 : Word
  h4 : Word
deriving DecidableEq, Repr

/-- The initial chaining value (10_state.md R11). A constant, not state (R22). -/
def IV : Chain := ⟨0x67452301, 0xEFCDAB89, 0x98BADCFE, 0x10325476, 0xC3D2E1F0⟩

end Sys2Proof.Machine
end

