-- ==== Sys2Proof/Machine/Compression.lean ====
section
/-! DEFINITION. The compression function: PARSE, EXPAND, INITWORK, 80 rounds, ADDBACK (41_compression.md R71 to R83), in the
80-word form that R82 calls normative, and beside it the permitted 16-word ring of R82. -/

namespace Sys2Proof.Machine

/-- The round constants `K[0..3]` (41_compression.md R71); `K` is constant, not state (10_state.md R22). The index is
`floor(t / 20)`, at most 3. -/
def K : Nat → Word
  | 0 => 0x5A827999
  | 1 => 0x6ED9EBA1
  | 2 => 0x8F1BBCDC
  | _ => 0xCA62C1D6

/-- F0, rounds 0 to 19 (41_compression.md R72). -/
def F0 (b c d : Word) : Word := (b &&& c) ||| (~~~b &&& d)

/-- F1, rounds 20 to 39 (41_compression.md R73). -/
def F1 (b c d : Word) : Word := b ^^^ c ^^^ d

/-- F2, rounds 40 to 59 (41_compression.md R74). -/
def F2 (b c d : Word) : Word := (b &&& c) ||| (b &&& d) ||| (c &&& d)

/-- F3, rounds 60 to 79 (41_compression.md R75). -/
def F3 (b c d : Word) : Word := b ^^^ c ^^^ d

/-- The function of round `t`, chosen by the range `t` lies in (41_compression.md R71). -/
def roundFunction (t : Nat) (b c d : Word) : Word :=
  if t < 20 then F0 b c d else if t < 40 then F1 b c d else if t < 60 then F2 b c d else F3 b c d

/-- The constant of round `t`, `K[floor(t / 20)]` (41_compression.md R71). -/
def roundConstant (t : Nat) : Word := K (t / 20)

/-- Element `i` of a schedule. Every index the rules use is inside it (41_compression.md R76, R77, R79); the value beyond
its end is never used (log entry 10). -/
def wordAt (W : List Word) (i : Nat) : Word := W.getD i 0

/-- Byte `i` of a block, `i < 64` (41_compression.md R76; log entry 10). -/
def byteAt (block : List Byte) (i : Nat) : Byte := block.getD i 0

/-- Word `i` of a block, from bytes `4i` to `4i + 3` (20_memory.md R26). -/
def blockWord (block : List Byte) (i : Nat) : Word :=
  be32 (byteAt block (4 * i)) (byteAt block (4 * i + 1)) (byteAt block (4 * i + 2)) (byteAt block (4 * i + 3))

/-- PARSE: `W[0..15]` from the 64 bytes (41_compression.md R76). -/
def parse (block : List Byte) : List Word := (List.range 16).map (blockWord block)

/-- The expression of R77 for `W[i]`, over the earlier words. -/
def scheduleWord (W : List Word) (i : Nat) : Word :=
  rotl32 (wordAt W (i - 3) ^^^ wordAt W (i - 8) ^^^ wordAt W (i - 14) ^^^ wordAt W (i - 16)) 1

/-- The next `count` schedule words from `W[i]` on, in increasing order (41_compression.md R77). -/
def expandFrom : Nat → Nat → List Word → List Word
  | 0, _, W => W
  | count + 1, i, W => expandFrom count (i + 1) (W ++ [scheduleWord W i])

/-- EXPAND: `W[16..79]` appended to `W[0..15]` (41_compression.md R77). -/
def expand (W : List Word) : List Word := expandFrom 64 16 W

/-- The message schedule `W[0..79]` of a block (41_compression.md R76, R77). -/
def schedule (block : List Byte) : List Word := expand (parse block)

/-- The working variables `a` to `e` (10_state.md R20). -/
structure Work where
  a : Word
  b : Word
  c : Word
  d : Word
  e : Word
deriving DecidableEq, Repr

/-- INITWORK (41_compression.md R78). -/
def initWork (H : Chain) : Work := ⟨H.h0, H.h1, H.h2, H.h3, H.h4⟩

/-- One round on the schedule word `w` = `W[t]` (41_compression.md R79): the five assignments as one simultaneous one,
every right-hand side taken from the values before the round. -/
def roundWith (t : Nat) (w : Word) (v : Work) : Work :=
  let f := roundFunction t v.b v.c v.d
  let tmp := add32 (add32 (add32 (add32 (rotl32 v.a 5) f) v.e) (roundConstant t)) w
  { a := tmp, b := v.a, c := rotl32 v.b 30, d := v.c, e := v.d }

/-- ROUND(t) (41_compression.md R79). -/
def round (W : List Word) (t : Nat) (v : Work) : Work := roundWith t (wordAt W t) v

/-- `count` rounds from round `t` on, in increasing order (41_compression.md R81). -/
def roundsFrom (W : List Word) : Nat → Nat → Work → Work
  | 0, _, v => v
  | count + 1, t, v => roundsFrom W count (t + 1) (round W t v)

/-- ADDBACK (41_compression.md R80). -/
def addBack (H : Chain) (v : Work) : Chain :=
  { h0 := add32 H.h0 v.a, h1 := add32 H.h1 v.b, h2 := add32 H.h2 v.c, h3 := add32 H.h3 v.d, h4 := add32 H.h4 v.e }

/-- COMPRESS as the pure function `(H, block) -> H'` (41_compression.md R83), precondition `len(block) = 64`: the
machine's only call of it checks the length (BlockBuffer.lean, `emitCompress`). Irreducible, so that no proof unfolds 80
rounds by accident; `unfold compress` opens it. -/
@[irreducible] def compress (H : Chain) (block : List Byte) : Chain :=
  addBack H (roundsFrom (schedule block) 80 0 (initWork H))

/-- One step of the 16-word ring (41_compression.md R82): for `t >= 16` the slot `t mod 16` is overwritten with `W[t]`
just before round `t`. -/
def ringStep (S : List Word) (t : Nat) : List Word :=
  if t < 16 then S
  else
    S.set (t % 16) (rotl32 (wordAt S ((t - 3) % 16) ^^^ wordAt S ((t - 8) % 16) ^^^ wordAt S ((t - 14) % 16)
      ^^^ wordAt S (t % 16)) 1)

/-- `count` rounds from round `t` on over the ring, interleaving EXPAND with the rounds (41_compression.md R81, R82). -/
def ringRoundsFrom : Nat → Nat → List Word → Work → Work
  | 0, _, _, v => v
  | count + 1, t, S, v =>
    let S' := ringStep S t
    ringRoundsFrom count (t + 1) S' (roundWith t (wordAt S' (t % 16)) v)

/-- The permitted implementation of `Compress` that holds 16 schedule words at a time (41_compression.md R82; D28). The
machine does not use it. -/
def compressRing (H : Chain) (block : List Byte) : Chain :=
  addBack H (ringRoundsFrom 80 0 (parse block) (initWork H))

end Sys2Proof.Machine
end

