-- ==== Sys2Proof/Config.lean ====
section
/-! DEFINITION. The values the spec leaves open. Each is an opaque constant applied to the plain counter `State.free`:
nothing in Lean can evaluate one, so a statement that holds, holds whatever they are. The hardware has no other
parameter (00_scope.md R5, R6). -/

namespace Sys2Proof

/-- FREE VALUE (DESIGN CHOICE, log entry 5). What `resp` carries while no response is present: "unspecified until the
first response" (10_state.md R24; 93_implementation_defined.md U4). -/
opaque Config.freeResp : Nat → BitVec 2

/-- FREE VALUE (DESIGN CHOICE, log entry 5). What `dout` carries unless the response is OK to a DIGEST: "For every other
response `dout` is unspecified" (30_encoding.md R51; U4). -/
opaque Config.freeDout : Nat → BitVec 160

/-- FREE VALUE (DESIGN CHOICE, log entry 7). What `st_fill` shows while a command is in progress: any value from 0 to 64
(30_encoding.md R52; U5). -/
opaque Config.freeStFill : Nat → Fin 65

end Sys2Proof
end

