-- ==== Sys2Proof/Machine/State.lean ====
section
/-! DEFINITION. The state of the core as plain data, the reasons a step can stop, and the state after NEW
(10_state.md; 30_encoding.md R40; 70_reset_and_hazards.md R119). -/

namespace Sys2Proof.Machine

/-- Why the machine stops. No exception of the spec is a fault: an exception ends a command with a response
(60_exceptions.md R111). Each fault stands for a precondition that "every call site meets"
(93_implementation_defined.md U11), so none is reachable from a state that meets `Inv` (Safety.lean). All are safe: the
model stops where the spec gives no behaviour. -/
inductive Fault where
  /-- Raised by MemRead, MemWrite, BB.NEXT, BB.ZEROFILL, BB.INPUT and BB.PAD when an offset would leave the 64 cells or
  their precondition on `FILL` or on their operand fails (00_scope.md R9; 40_block_buffer.md R57, R58, R60, R63). Safe. -/
  | bufferRange
  /-- Raised by BB.DRAIN when `FILL` is not 64 (40_block_buffer.md R59). Safe. -/
  | drainNotFull
  /-- Raised by the call of `Compress` on other than 64 bytes (41_compression.md R84). Safe. -/
  | blockLength
  /-- Raised by MemRead of a cell that nothing has written since power-on (10_state.md R13; log entry 8). Safe. -/
  | unwrittenByte
deriving DecidableEq, Repr

/-- Why an instruction has no meaning. Every command has one, so no step answers a refusal; the constructor is the
host's. -/
inductive Refusal where
  /-- Raised by an arm of `exec` that has no meaning yet (there is none). Safe. -/
  | notModelled (mnemonic : String)
deriving DecidableEq, Repr

/-- Which state a `Compress` call ran on: the live engine or DIGEST's snapshot (10_state.md R21, R23). -/
inductive Side where
  | live
  | snapshot
deriving DecidableEq, Repr

/-- One event `Compress(block)` of the event trace, "carrying the 64 bytes and whether it ran on the live state or on a
snapshot" (10_state.md R23). -/
structure Event where
  block : List Byte
  side : Side
deriving DecidableEq, Repr

/-- What the host presents to the core, apart from payload bytes (30_encoding.md R40; 42_engine_commands.md R87). -/
inductive HostEvent where
  /-- A command word on `cmd`. -/
  | cmd (word : CommandWord)
  /-- `rst` asserted and released between two commands, or while a WRITE waits for payload: the event NEW
  (70_reset_and_hazards.md R118). -/
  | rst
  /-- A command word on `cmd`, and `rst` asserted after the core accepts it and before it responds, when the core has
  taken `taken` of the payload bytes it is owed, or as many as it can (70_reset_and_hazards.md R120). -/
  | cmdCut (word : CommandWord) (taken : Nat)
deriving DecidableEq, Repr

/-- An accepted WRITE that is owed payload bytes: the control position (10_state.md R19). The payload cursor `i` is
`taken.length`. -/
structure Pending where
  /-- `LEN64`, the number of payload bytes of the WRITE. -/
  n : Nat
  /-- The payload bytes taken from `din` so far, first one first. -/
  taken : List Byte
deriving DecidableEq, Repr

/-- The core, its ports and the devices of the model. INVENTORY.md, "State", has a line for every field. -/
structure State where
  /-- The chaining registers `H[0..4]` (10_state.md R10). -/
  H : Chain
  /-- The block buffer: (offset, byte) pairs, offsets rising, all below 64 (10_state.md R12). An unlisted cell has no
  value (log entry 8). -/
  BUF : List Host.Cell
  /-- The fill offset (10_state.md R14). -/
  FILL : BitVec 7
  /-- The bit counter (10_state.md R16). -/
  LEN : BitVec 64
  /-- The sticky error flag (10_state.md R18). -/
  ERR : Bool
  /-- The command in progress, if a WRITE waits for payload bytes (10_state.md R19; 70_reset_and_hazards.md R123). -/
  busy : Option Pending
  /-- Output `resp_valid`: the last command accepted has been answered (30_encoding.md R40; log entry 6). -/
  respValid : Bool
  /-- Output `resp`, the response code (30_encoding.md R50). -/
  resp : BitVec 2
  /-- Output `dout` (30_encoding.md R51). -/
  dout : BitVec 160
  /-- What the host presents next, oldest first (30_encoding.md R41; log entry 2). -/
  host : List HostEvent
  /-- The payload bytes standing on `din`, first one first (30_encoding.md R49; log entry 2). -/
  din : List Byte
  /-- The event trace, oldest first (10_state.md R23). -/
  trace : List Event
  /-- The model's own counter of free values taken (log entry 5). -/
  free : Nat
deriving DecidableEq, Repr

/-- The state after power-on, NEW (10_state.md R24; 70_reset_and_hazards.md R119), with nothing presented by the host
and an empty trace. -/
def State.reset : State where
  H := IV
  BUF := []
  FILL := 0
  LEN := 0
  ERR := false
  busy := none
  respValid := false
  resp := Config.freeResp 0
  dout := Config.freeDout 0
  host := []
  din := []
  trace := []
  free := 1

end Sys2Proof.Machine
end

