-- ==== Sys2Proof/Machine/Memory.lean ====
section
/-! DEFINITION. The block buffer as memory: the primitives `MemRead` and `MemWrite` of 00_scope.md R9 over the 64 cells of
`BUF` (20_memory.md R25), in one canonical form. `BLOCK_BYTES` = 64, the size of the buffer and of a block (00_scope.md R5),
is written 64. -/

namespace Sys2Proof.Machine

/-- The cell at an offset; `none` where nothing is listed: what an unlisted cell reads as is no value (10_state.md R13,
U1; DESIGN CHOICE, log entry 8). -/
def Memory.read : List Host.Cell → Nat → Option Byte
  | [], _ => none
  | (a, b) :: m, addr => if a = addr then some b else Memory.read m addr

/-- Store one byte, keeping the offsets rising. -/
def Memory.write : List Host.Cell → Nat → Byte → List Host.Cell
  | [], addr, b => [(addr, b)]
  | (a, c) :: m, addr, b =>
    if addr < a then (addr, b) :: (a, c) :: m
    else if a = addr then (addr, b) :: m
    else (a, c) :: Memory.write m addr b

/-- Offsets strictly rising and all at least `lo`. -/
def Memory.risingFrom : Nat → List Host.Cell → Bool
  | _, [] => true
  | lo, (a, _) :: m => decide (lo ≤ a) && Memory.risingFrom (a + 1) m

/-- The canonical form: offsets strictly rising, all inside the 64 cells (20_memory.md R25). No entry equals what an
unlisted cell reads as, since that is no value. -/
def Memory.wf (m : List Host.Cell) : Bool :=
  Memory.risingFrom 0 m && m.all (fun c => decide (c.1 < 64))

/-- The bytes at `n` offsets from `addr` on; a cell without a value faults. -/
def Memory.readBytes (m : List Host.Cell) : Nat → Nat → Except Fault (List Byte)
  | _, 0 => .ok []
  | addr, n + 1 =>
    match Memory.read m addr with
    | none => .error .unwrittenByte
    | some b =>
      match Memory.readBytes m (addr + 1) n with
      | .ok bs => .ok (b :: bs)
      | .error f => .error f

/-- The bytes stored one after the other from `addr` on. -/
def Memory.writeBytes : List Host.Cell → Nat → List Byte → List Host.Cell
  | m, _, [] => m
  | m, addr, b :: bs => Memory.writeBytes (Memory.write m addr b) (addr + 1) bs

/-- `MemRead(addr, n)`, precondition `addr + n <= 64` (00_scope.md R9). -/
def memRead (m : List Host.Cell) (addr n : Nat) : Except Fault (List Byte) :=
  if addr + n ≤ 64 then Memory.readBytes m addr n else .error .bufferRange

/-- `MemWrite(addr, n, s)` with `n = len(s)`, precondition `addr + n <= 64` (00_scope.md R9). -/
def memWrite (m : List Host.Cell) (addr : Nat) (s : List Byte) : Except Fault (List Host.Cell) :=
  if addr + s.length ≤ 64 then .ok (Memory.writeBytes m addr s) else .error .bufferRange

end Sys2Proof.Machine
end

