-- ==== Sys2Proof/Machine/BlockBuffer.lean ====
section
/-! DEFINITION. The block-buffer operations BB.RESET, BB.NEXT, BB.ZEROFILL, BB.DRAIN, BB.INPUT, BB.PAD
(40_block_buffer.md R55 to R63). An operation whose precondition fails has no value: it stops with a named fault
(93_implementation_defined.md U11). -/

namespace Sys2Proof.Machine

/-- A buffer context: the triple `(BUF, FILL, H)` of 40_block_buffer.md R55, live or snapshot, with the event trace its
`emit`s write (10_state.md R23). `FILL` is a count from 0 to 64 inside a command. -/
structure Context where
  H : Chain
  BUF : List Host.Cell
  FILL : Nat
  side : Side
  trace : List Event
deriving DecidableEq, Repr

/-- `emit Compress(block)` and then `Compress(block)` on the `H` of the context (40_block_buffer.md R59, R60); exactly 64
bytes (41_compression.md R84). -/
def emitCompress (block : List Byte) (c : Context) : Except Fault Context :=
  if block.length = 64 then
    .ok { c with H := compress c.H block, trace := c.trace ++ [⟨block, c.side⟩] }
  else .error .blockLength

/-- BB.RESET (40_block_buffer.md R56): the cells are not written. -/
def bbReset (c : Context) : Context := { c with FILL := 0 }

/-- BB.NEXT(n) (40_block_buffer.md R57): the offset at which the caller must store `n` bytes, `1 <= n`,
`FILL + n <= 64`. -/
def bbNext (n : Nat) (c : Context) : Except Fault (Nat × Context) :=
  if 1 ≤ n ∧ c.FILL + n ≤ 64 then .ok (c.FILL, { c with FILL := c.FILL + n }) else .error .bufferRange

/-- A `MemWrite` on the cells of a context. -/
def storeBytes (addr : Nat) (s : List Byte) (c : Context) : Except Fault Context :=
  match memWrite c.BUF addr s with
  | .ok m => .ok { c with BUF := m }
  | .error f => .error f

/-- BB.ZEROFILL(limit) (40_block_buffer.md R58), precondition `FILL <= limit <= 64`. -/
def bbZeroFill (limit : Nat) (c : Context) : Except Fault Context :=
  if c.FILL ≤ limit then
    match storeBytes c.FILL (zeros (limit - c.FILL)) c with
    | .ok c' => .ok { c' with FILL := limit }
    | .error f => .error f
  else .error .bufferRange

/-- BB.DRAIN (40_block_buffer.md R59), precondition `FILL = 64`: the cells are not cleared. -/
def bbDrain (c : Context) : Except Fault Context :=
  if c.FILL = 64 then
    match memRead c.BUF 0 64 with
    | .ok block =>
      match emitCompress block c with
      | .ok c' => .ok { c' with FILL := 0 }
      | .error f => .error f
    | .error f => .error f
  else .error .drainNotFull

/-- Step 2 of BB.INPUT (40_block_buffer.md R60): `count` whole blocks straight from the payload, not through `BUF`. The
loop runs while 64 bytes are left, that is `count = floor(len / 64)` times; the bytes left over are returned. -/
def directBlocks : Nat → List Byte → Context → Except Fault (List Byte × Context)
  | 0, bytes, c => .ok (bytes, c)
  | count + 1, bytes, c =>
    match emitCompress (bytes.take 64) c with
    | .ok c' => directBlocks count (bytes.drop 64) c'
    | .error f => .error f

/-- Steps 2 and 3 of BB.INPUT (40_block_buffer.md R60): whole blocks, then the remainder into `BUF[0..r)`. -/
def inputWholeBlocks (bytes : List Byte) (c : Context) : Except Fault Context :=
  match directBlocks (bytes.length / 64) bytes c with
  | .ok (rest, c') =>
    match storeBytes 0 rest c' with
    | .ok c'' => .ok { c'' with FILL := rest.length }
    | .error f => .error f
  | .error f => .error f

/-- BB.INPUT(bytes) (40_block_buffer.md R60), precondition `FILL <= 63`. Step 1 completes a partly filled window and
drains it, or just stores. -/
def bbInput (bytes : List Byte) (c : Context) : Except Fault Context :=
  if 64 ≤ c.FILL then .error .bufferRange
  else if c.FILL = 0 then inputWholeBlocks bytes c
  else if 64 - c.FILL ≤ bytes.length then
    match storeBytes c.FILL (bytes.take (64 - c.FILL)) c with
    | .ok c1 =>
      match bbDrain { c1 with FILL := 64 } with
      | .ok c2 => inputWholeBlocks (bytes.drop (64 - c.FILL)) c2
      | .error f => .error f
    | .error f => .error f
  else
    match storeBytes c.FILL bytes c with
    | .ok c1 => .ok { c1 with FILL := c.FILL + bytes.length }
    | .error f => .error f

/-- `PAD_MARKER` (00_scope.md R5). -/
def padMarker : Byte := 0x80

/-- BB.NEXT(len(s)) and the store of `s` at the offset it returns (40_block_buffer.md R57; 42_engine_commands.md R92). -/
def appendBytes (s : List Byte) (c : Context) : Except Fault Context :=
  match bbNext s.length c with
  | .ok (p, c') => storeBytes p s c'
  | .error f => .error f

/-- BB.PAD(reserve) (40_block_buffer.md R63), precondition `FILL <= 63`. The test uses `FILL` after the marker. The rule is
stated for `1 <= reserve <= 63` and the hardware uses 8 only: that any other `reserve` stops with a named fault is the
model's choice (log entry 9). -/
def bbPad (reserve : Nat) (c : Context) : Except Fault Context :=
  if 1 ≤ reserve ∧ reserve ≤ 63 then
    match appendBytes [padMarker] c with
    | .ok c1 =>
      if 64 - c1.FILL < reserve then
        match bbZeroFill 64 c1 with
        | .ok c2 =>
          match bbDrain c2 with
          | .ok c3 => bbZeroFill (64 - reserve) c3
          | .error f => .error f
        | .error f => .error f
      else bbZeroFill (64 - reserve) c1
    | .error f => .error f
  else .error .bufferRange

end Sys2Proof.Machine
end

