-- ==== Sys2Proof/Machine/Flags.lean ====
section
/-! DEFINITION. The one flag and the one overflow of the hardware: `ERR` (10_state.md R18) and the counter check of WRITE
(42_engine_commands.md R90). -/

namespace Sys2Proof.Machine

/-- The overflow check of WRITE on unbounded natural numbers: `LEN + 8n >= 2^64` (42_engine_commands.md R90). -/
def counterOverflows (LEN : BitVec 64) (n : Nat) : Bool := decide (2 ^ 64 ≤ LEN.toNat + 8 * n)

/-- The same check in 64-bit hardware terms: `n[63:61]` is not zero, or the 64-bit addition `LEN + {n[60:0], 000}` carries
out of bit 63 (42_engine_commands.md R90). The machine uses `counterOverflows`. -/
def counterOverflowsHw (LEN n : BitVec 64) : Bool :=
  n.extractLsb' 61 3 != 0 || (LEN.zeroExtend 65 + (n.extractLsb' 0 61 ++ (0 : BitVec 3)).zeroExtend 65).getLsbD 64

/-- `LEN + 8n`, used only where it fits (42_engine_commands.md R89). -/
def advanceCounter (LEN : BitVec 64) (n : Nat) : BitVec 64 := BitVec.ofNat 64 (LEN.toNat + 8 * n)

end Sys2Proof.Machine
end

