-- ==== Sys2Proof/Machine/Operands.lean ====
section
/-! DEFINITION. The operands of a command: `LEN64` is in the instruction (30_encoding.md R43); the payload is taken from `din`
(30_encoding.md R49). -/

namespace Sys2Proof.Machine

/-- How many payload bytes an accepted WRITE is still owed: `n` less the cursor (30_encoding.md R41, R49). -/
def bytesDue (p : Pending) : Nat := p.n - p.taken.length

/-- The pending WRITE after it has taken what stands on `din`, at most what it is owed (30_encoding.md R41: "the core takes
no byte outside that window"). -/
def takePayload (p : Pending) (s : State) : Pending := { p with taken := p.taken ++ s.din.take (bytesDue p) }

/-- `din` after that. -/
def leavePayload (p : Pending) (s : State) : List Byte := s.din.drop (bytesDue p)

end Sys2Proof.Machine
end

