-- ==== Sys2Proof/Machine/Ops.lean ====
section
/-! DEFINITION. The operations the commands share: responding, raising an exception (60_exceptions.md R102 to R111) and
leaving the failed state (R112), accepting a command, moving between the state and a buffer context, the serializer. -/

namespace Sys2Proof.Machine

/-- The four responses (30_encoding.md R50). -/
inductive Response where
  | ok
  | overflow
  | illegal
  | failed
deriving DecidableEq, Repr

/-- The 2-bit code of a response (30_encoding.md R50). -/
def responseCode : Response → BitVec 2
  | .ok => 0
  | .overflow => 1
  | .illegal => 2
  | .failed => 3

/-- No response is present: `resp` and `dout` may carry anything (30_encoding.md R40, R51; U4; log entries 5, 6). -/
def withoutResponse (s : State) : State :=
  { s with respValid := false, resp := Config.freeResp s.free, dout := Config.freeDout s.free, free := s.free + 1 }

/-- The command ends with a response that carries no digest: `dout` is unspecified (30_encoding.md R50, R51; U4). -/
def respond (r : Response) (s : State) : State :=
  { s with
    busy := none, respValid := true, resp := responseCode r, dout := Config.freeDout s.free, free := s.free + 1 }

/-- The command ends with the response OK of a DIGEST and `dout` (30_encoding.md R51). -/
def respondDigest (d : BitVec 160) (s : State) : State :=
  { s with busy := none, respValid := true, resp := responseCode .ok, dout := d }

/-- The complete list of exceptions (60_exceptions.md R102). -/
inductive Exception where
  | overflowError
  | illegalCommand
  | failed
deriving DecidableEq, Repr

/-- The response code an exception ends its command with (60_exceptions.md R102). -/
def exceptionResponse : Exception → Response
  | .overflowError => .overflow
  | .illegalCommand => .illegal
  | .failed => .failed

/-- `ERR` after an exception: set by OverflowError (60_exceptions.md R104), left alone by the other two (R105, R106). -/
def exceptionErr : Exception → Bool → Bool
  | .overflowError, _ => true
  | .illegalCommand, err => err
  | .failed, err => err

/-- Taking an exception: "Raising an exception saves nothing and transfers control nowhere"; the command ends with the
exception's response, and the state is the state before it, except `ERR` after OverflowError (60_exceptions.md R111). -/
def raiseException (x : Exception) (s : State) : State :=
  respond (exceptionResponse x) { s with ERR := exceptionErr x s.ERR }

/-- The live context: the architectural `H`, `BUF`, `FILL` (40_block_buffer.md R55). -/
def liveContext (s : State) : Context := ⟨s.H, s.BUF, s.FILL.toNat, .live, s.trace⟩

/-- DIGEST's snapshot: a full copy (10_state.md R21; 42_engine_commands.md R92). -/
def snapshotContext (s : State) : Context := ⟨s.H, s.BUF, s.FILL.toNat, .snapshot, s.trace⟩

/-- The live context written back to the registers; `FILL` is held in 7 bits (10_state.md R14). -/
def commitLive (c : Context) (s : State) : State :=
  { s with H := c.H, BUF := c.BUF, FILL := BitVec.ofNat 7 c.FILL, trace := c.trace }

/-- The freshly constructed state, the one way out of the failed state: what NEW and RESET both do to the registers
(42_engine_commands.md R87, R88; 60_exceptions.md R112). `BUF` and the trace are not written (10_state.md R24). -/
def initialise (s : State) : State :=
  { commitLive (bbReset { liveContext s with H := IV }) s with LEN := 0, ERR := false }

/-- The event NEW (42_engine_commands.md R87): the registers, no response, and no command in progress: one that was is
abandoned (70_reset_and_hazards.md R120). R120 leaves the cells an abandoned WRITE wrote unspecified: that a waiting WRITE has
stored to none is the model's choice (log entry 17), as is that it adds no event (log entry 11). -/
def newEvent (s : State) : State := withoutResponse { initialise s with busy := none }

/-- The core accepts the command word at the head of `host`: the rest stays presented and no response is present until
this command's own (30_encoding.md R41). -/
def acceptCommand (rest : List HostEvent) (s : State) : State := withoutResponse { s with host := rest }

/-- How many payload bytes a command word entitles the core to take: `LEN64` for a WRITE that passes its checks, none for
anything else (30_encoding.md R49). -/
def payloadOwed (w : CommandWord) (s : State) : Nat :=
  match decodeWord w with
  | .ok (.write n) => if s.ERR || counterOverflows s.LEN n then 0 else n
  | .ok .reset => 0
  | .ok .digest => 0
  | .error _ => 0

/-- `rst` while the command `w` is in progress, after it has taken up to `taken` payload bytes: the command is abandoned
without a response and "the state afterwards is exactly the state" of NEW (70_reset_and_hazards.md R120). R120 leaves the
cells of `BUF` it wrote unspecified: the model discards its stores and keeps every cell as before it (log entry 17), and it
adds no event (log entry 11). Both are the model's choice. -/
def cutCommand (w : CommandWord) (taken : Nat) (rest : List HostEvent) (s : State) : State :=
  newEvent { s with host := rest, din := s.din.drop (min taken (payloadOwed w s)) }

/-- SERIALIZE(X) (42_engine_commands.md R94). -/
def serialize (X : Chain) : List Byte :=
  be32Bytes X.h0 ++ be32Bytes X.h1 ++ be32Bytes X.h2 ++ be32Bytes X.h3 ++ be32Bytes X.h4

/-- The 20 bytes on `dout`, byte 0 in the most significant position (30_encoding.md R51). -/
def digestPort (D : List Byte) : BitVec 160 := BitVec.ofNat 160 (beNat D)

end Sys2Proof.Machine
end

