-- ==== Sys2Proof/Machine/Engine.lean ====
section
/-! DEFINITION. The meanings of the three commands RESET, WRITE, DIGEST (42_engine_commands.md R88, R89, R92). -/

namespace Sys2Proof.Machine

/-- RESET (42_engine_commands.md R88): never refused, in either state. -/
def execReset (s : State) : Host.Outcome State Fault Refusal := .next (respond .ok (initialise s))

/-- The accepted WRITE of `n` bytes with its whole payload: `LEN <- LEN + 8n`, then BB.INPUT on the live context, then OK
(42_engine_commands.md R89). -/
def completeWrite (n : Nat) (bytes : List Byte) (s : State) : Host.Outcome State Fault Refusal :=
  match bbInput bytes (liveContext s) with
  | .ok c => .next (respond .ok (commitLive c { s with LEN := advanceCounter s.LEN n }))
  | .error f => .fault f

/-- An accepted WRITE takes the payload bytes that stand on `din`. With the last one it completes; until then it "is not
complete, the core stays busy and no other command is accepted" (70_reset_and_hazards.md R123; log entry 3). -/
def receivePayload (p : Pending) (s : State) : Host.Outcome State Fault Refusal :=
  if (takePayload p s).taken.length = p.n then
    completeWrite p.n (takePayload p s).taken { s with din := leavePayload p s }
  else .next (withoutResponse { s with busy := some (takePayload p s), din := leavePayload p s })

/-- WRITE(n, bytes) (42_engine_commands.md R89), its checks in the order of R86: the failed state, then the overflow, then
the payload. -/
def execWrite (n : Nat) (s : State) : Host.Outcome State Fault Refusal :=
  if s.ERR then .next (raiseException .failed s)
  else if counterOverflows s.LEN n then .next (raiseException .overflowError s)
  else receivePayload ⟨n, []⟩ s

/-- The body of DIGEST on its snapshot: BB.PAD(8), BB.NEXT(8), the length `LEN'` in the last eight bytes, the last drain
(42_engine_commands.md R92). -/
def padAndFinish (LEN : BitVec 64) (c : Context) : Except Fault Context :=
  match bbPad 8 c with
  | .ok c1 =>
    match appendBytes (be64Bytes LEN) c1 with
    | .ok c2 => bbDrain c2
    | .error f => .error f
  | .error f => .error f

/-- DIGEST (42_engine_commands.md R92): the live registers are not written (R93), only the event trace grows. -/
def execDigest (s : State) : Host.Outcome State Fault Refusal :=
  if s.ERR then .next (raiseException .failed s)
  else
    match padAndFinish s.LEN (snapshotContext s) with
    | .ok c => .next (respondDigest (digestPort (serialize c.H)) { s with trace := c.trace })
    | .error f => .fault f

end Sys2Proof.Machine
end

