-- ==== Sys2Proof/Machine/Dispatch.lean ====
section
/-! DEFINITION. One arm per command: the meaning it has (42_engine_commands.md R85). -/

namespace Sys2Proof.Machine

def exec (i : Instr) (s : State) : Host.Outcome State Fault Refusal :=
  match i with
  | .reset => Sys2Proof.Machine.execReset s
  | .write n => Sys2Proof.Machine.execWrite n s
  | .digest => Sys2Proof.Machine.execDigest s

end Sys2Proof.Machine
end

