-- ==== Sys2Proof/Machine/Step.lean ====
section
/-! DEFINITION. One step of the core: one host event taken to completion, or a wait (00_scope.md R7; 42_engine_commands.md
R85; 70_reset_and_hazards.md R118 to R123). -/

namespace Sys2Proof.Machine

/-- Execute(c, bytes) (42_engine_commands.md R85): the decoder chooses the command; an illegal word raises
IllegalCommand (60_exceptions.md R105). -/
def executeWord (w : CommandWord) (s : State) : Host.Outcome State Fault Refusal :=
  match decodeWord w with
  | .ok i => exec i s
  | .error _ => .next (raiseException .illegalCommand s)

/-- One step. While a WRITE is in progress only more payload or `rst` has an effect (70_reset_and_hazards.md R120, R122,
R123). Otherwise the core takes the next thing the host presents; with nothing presented it "simply holds its state"
(60_exceptions.md R117). -/
def step (s : State) : Host.Outcome State Fault Refusal :=
  match s.busy, s.host with
  | some _, .rst :: rest => .next (newEvent { s with host := rest })
  | some p, _ => receivePayload p s
  | none, [] => .next s
  | none, .rst :: rest => .next (newEvent { s with host := rest })
  | none, .cmdCut w taken :: rest => .next (cutCommand w taken rest s)
  | none, .cmd w :: rest => executeWord w (acceptCommand rest s)

/-- The state in which the very next step takes the table row's word from the command port: the word is presented first,
and no WRITE is in progress. A WRITE's payload is not part of its word: it is what `din` holds (log entry 2). -/
def State.withFetchWord (s : State) (nbits w : Nat) : State :=
  { s with host := .cmd (tableWord nbits w) :: s.host, busy := none }

end Sys2Proof.Machine
end

