-- ==== Sys2Proof/Machine/HostSide.lean ====
section
/-! DEFINITION. What the spec records of the host, outside the block (00_scope.md R4): the hexadecimal form of a digest
(42_engine_commands.md R98) and the listing syntax with its pseudo-commands (30_encoding.md R54). The machine uses none of it. -/

namespace Sys2Proof.Machine

/-- One lower-case hexadecimal digit "taken from `0123456789abcdef`" (42_engine_commands.md R98). -/
def hexDigit (v : Nat) : Char := "0123456789abcdef".toList.getD v '0'

/-- HEXDIGEST: two characters per byte, bits 7:4 first, no separators (42_engine_commands.md R98). -/
def hexDigest (D : List Byte) : List Char :=
  D.flatMap fun b => [hexDigit (b.toNat / 16), hexDigit (b.toNat % 16)]

/-- The bytes of a text in ASCII; "no terminator is added" (30_encoding.md R54). A character outside ASCII has no byte there:
taking its code point modulo 256 is the model's choice (log entry 15). -/
def asciiBytes (text : String) : List Byte := text.toList.map fun ch => BitVec.ofNat 8 ch.toNat

/-- The lines of a listing (30_encoding.md R54); `writeHex` has its bytes, already read from their pairs. -/
inductive Line where
  | reset
  | writeText (text : String)
  | writeHex (bytes : List Byte)
  | writeRepeat (n : Nat) (pattern : List Byte)
  | writeLen (n : Nat)
  | digest
  | new
  | hexDigest
  | hash (text : String)
  | writeTexts (texts : List String)
deriving DecidableEq, Repr

/-- One thing presented on the command port, with the payload the listing gives for it. -/
abbrev Call := HostEvent × List Byte

/-- One `WRITE` of known bytes. -/
def writeCall (bytes : List Byte) : Call := (.cmd (encode (.write bytes.length)), bytes)

/-- The expansion of a line (30_encoding.md R54). `WRITE len=N` has no payload: it is "used only where the command is rejected
before any payload is taken". HEXDIGEST is DIGEST, then `hexDigest` at the host. -/
def expandLine : Line → List Call
  | .reset => [(.cmd (encode .reset), [])]
  | .writeText text => [writeCall (asciiBytes text)]
  | .writeHex bytes => [writeCall bytes]
  | .writeRepeat n pattern => [writeCall (List.replicate n pattern).flatten]
  | .writeLen n => [(.cmd (encode (.write n)), [])]
  | .digest => [(.cmd (encode .digest), [])]
  | .new => [(.rst, [])]
  | .hexDigest => [(.cmd (encode .digest), [])]
  | .hash text => [(.cmd (encode .reset), []), writeCall (asciiBytes text), (.cmd (encode .digest), [])]
  | .writeTexts texts => texts.map fun t => writeCall (asciiBytes t)

/-- What "a host that tracks its own byte count" knows of the core: enough to "know the outcome in advance", since a rejection
depends on `ERR`, `LEN` and `n` only (70_reset_and_hazards.md R123). -/
structure HostView where
  ERR : Bool
  LEN : BitVec 64
deriving DecidableEq, Repr

/-- Whether the core will reject a WRITE of `n` bytes (42_engine_commands.md R89). -/
def HostView.rejects (v : HostView) (n : Nat) : Bool := v.ERR || counterOverflows v.LEN n

/-- The view after one more thing presented has run (42_engine_commands.md R99). -/
def HostView.after (v : HostView) : HostEvent → HostView
  | .rst => ⟨false, 0⟩
  | .cmdCut _ _ => ⟨false, 0⟩
  | .cmd w =>
    match decodeWord w with
    | .ok .reset => ⟨false, 0⟩
    | .ok (.write n) => if v.rejects n then { v with ERR := true } else { v with LEN := advanceCounter v.LEN n }
    | .ok .digest => v
    | .error _ => v

/-- The view once everything already presented has run: a WRITE in progress first, then the rest in order. -/
def hostView (s : State) : HostView :=
  let LEN := match s.busy with
    | some p => advanceCounter s.LEN p.n
    | none => s.LEN
  s.host.foldl HostView.after ⟨s.ERR, LEN⟩

/-- The payload the host sends for its calls: for a WRITE that is rejected "the host must not send any" (30_encoding.md R49;
70_reset_and_hazards.md R123). -/
def payloadSent : HostView → List Call → List Byte
  | _, [] => []
  | v, (event, bytes) :: calls =>
    (if v.rejects bytes.length then [] else bytes) ++ payloadSent (v.after event) calls

/-- A state with a listing presented to it, line after line, by a host that keeps to R49 and R123 (log entry 15). -/
def presentLines (lines : List Line) (s : State) : State :=
  { s with
    host := s.host ++ (lines.flatMap expandLine).map Prod.fst,
    din := s.din ++ payloadSent (hostView s) (lines.flatMap expandLine) }

end Sys2Proof.Machine
end

