-- ==== Sys2Proof/Machine/Ports.lean ====
section
/-! DEFINITION. What the output ports show (30_encoding.md R40, R52): all a host can observe of the core (60_exceptions.md
R116). `resp_valid`, `resp` and `dout` are fields of State; the others are computed from it. -/

namespace Sys2Proof.Machine

/-- `st_busy`: "A command is in progress" (30_encoding.md R40, R52). -/
def stBusy (s : State) : Bool := s.busy.isSome

/-- `cmd_ready`: "Low while a command is in progress" (30_encoding.md R40). -/
def cmdReady (s : State) : Bool := !stBusy s

/-- `din_ready`: "High only inside an accepted WRITE with payload bytes still due" (30_encoding.md R40). -/
def dinReady (s : State) : Bool :=
  match s.busy with
  | some p => decide (p.taken.length < p.n)
  | none => false

/-- `st_err`: the value of `ERR` (30_encoding.md R52). -/
def stErr (s : State) : Bool := s.ERR

/-- `st_fill`: the value of `FILL` at rest; "While `st_busy` is high `st_fill` is unspecified", 0 to 64 (30_encoding.md
R52; U5; log entry 7). -/
def stFill (s : State) : BitVec 7 :=
  if stBusy s then BitVec.ofNat 7 (Config.freeStFill s.free).val else s.FILL

end Sys2Proof.Machine
end

