-- ==== Sys2Proof/Machine/Sha1.lean ====
section
/-! DEFINITION. The function the core computes, "stated without the machinery" (42_engine_commands.md R97; 20_memory.md R31;
40_block_buffer.md R61). The machine does not use it: statements compare the machine with it. -/

namespace Sys2Proof.Machine

/-- The first `count` consecutive 64-byte pieces of a byte sequence (20_memory.md R31). -/
def blocksOf : Nat → List Byte → List (List Byte)
  | 0, _ => []
  | count + 1, s => s.take 64 :: blocksOf count (s.drop 64)

/-- All the whole blocks of a byte sequence: `floor(len / 64)` of them (40_block_buffer.md R61). -/
def wholeBlocks (s : List Byte) : List (List Byte) := blocksOf (s.length / 64) s

/-- The bytes after the whole blocks: `s[64q..L)` (40_block_buffer.md R61). -/
def remainder (s : List Byte) : List Byte := s.drop (64 * (s.length / 64))

/-- `X_j = Compress(X_{j-1}, P_j)` over a list of blocks (42_engine_commands.md R97). -/
def compressAll (H : Chain) (blocks : List (List Byte)) : Chain := blocks.foldl compress H

/-- `z = (55 - len) mod 64`, result in 0 to 63 (20_memory.md R31). -/
def padZeros (len : Nat) : Nat := (55 + 64 - len % 64) % 64

/-- The padded message `P = M ++ [0x80] ++ zeros(z) ++ be64_bytes(8 * len(M))` (20_memory.md R31). -/
def paddedMessage (M : List Byte) : List Byte :=
  M ++ [0x80] ++ zeros (padZeros M.length) ++ be64Bytes (BitVec.ofNat 64 (8 * M.length))

/-- The 20 bytes of the digest of a message: `SERIALIZE(X_q)` from `X_0 = IV` (42_engine_commands.md R97). -/
def sha1 (M : List Byte) : List Byte := serialize (compressAll IV (wholeBlocks (paddedMessage M)))

/-- The final block or blocks DIGEST compresses, from the `F` valid bytes and `LEN` (42_engine_commands.md R95). -/
def finalBlocks (valid : List Byte) (LEN : BitVec 64) : List (List Byte) :=
  if valid.length ≤ 55 then [valid ++ [padMarker] ++ zeros (55 - valid.length) ++ be64Bytes LEN]
  else [valid ++ [padMarker] ++ zeros (63 - valid.length), zeros 56 ++ be64Bytes LEN]

end Sys2Proof.Machine
end

