-- ==== Sys2Proof/Safety.lean ====
section
/-! DEFINITION. What counts as a good state: the invariants the spec states of the engine at rest (10_state.md R10, R15,
R17; 40_block_buffer.md R65), in the terms the statements use. -/

namespace Sys2Proof.Machine

/-- The valid bytes of the buffer are `valid`: `FILL <= 63` and `MemRead(0, FILL)` gives them (10_state.md R15;
40_block_buffer.md R61). -/
def HoldsBytes (s : State) (valid : List Byte) : Prop :=
  s.FILL.toNat < 64 ∧ memRead s.BUF 0 s.FILL.toNat = .ok valid

/-- A WRITE in progress passed its checks and is still owed bytes (70_reset_and_hazards.md R123). -/
def PendingOk (s : State) (p : Pending) : Prop :=
  p.taken.length < p.n ∧ s.ERR = false ∧ counterOverflows s.LEN p.n = false

/-- The invariant of the core: the buffer in its canonical form; `FILL` at most 63 (10_state.md R15) and every cell below
it holding a byte (R13); `LEN` a multiple of 8 (R17) with `FILL = (LEN / 8) mod 64` (R15); a WRITE in progress as it
should be; every event carrying 64 bytes (R23; 41_compression.md R84). The rules speak of the core at rest: that the same
holds while a WRITE waits, and `PendingOk`, are the model's choice (log entry 3). -/
structure Inv (s : State) : Prop where
  bufWf : Memory.wf s.BUF = true
  fillAtRest : s.FILL.toNat ≤ 63
  cellsWritten : ∀ a < s.FILL.toNat, (Memory.read s.BUF a).isSome = true
  lenBytes : s.LEN.toNat % 8 = 0
  fillOfLen : s.FILL.toNat = s.LEN.toNat / 8 % 64
  pendingOk : ∀ p, s.busy = some p → PendingOk s p
  traceBlocks : ∀ e ∈ s.trace, e.block.length = 64

/-- The engine has absorbed the message `M` since the last reset: `H = X_r` with `r = floor(len(M) / 64)`, `FILL = len(M) mod
64`, the valid bytes are the last `FILL` bytes of `M`, `LEN = 8 * len(M)` (42_engine_commands.md R97). -/
structure Absorbed (M : List Byte) (s : State) : Prop where
  chain : s.H = compressAll IV (wholeBlocks M)
  fill : s.FILL.toNat = M.length % 64
  valid : memRead s.BUF 0 (M.length % 64) = .ok (remainder M)
  len : s.LEN.toNat = 8 * M.length

/-- The illegal command words (30_encoding.md R48): `OP` = 0x00, `OP` from 0x04 to 0xFF, and `OP` = 0x01 or 0x03 with
`LEN64` not zero. -/
def IllegalWord (c : CommandWord) : Prop :=
  opField c = 0x00 ∨ 0x04 ≤ (opField c).toNat ∨ ((opField c = 0x01 ∨ opField c = 0x03) ∧ len64Field c ≠ 0)

/-- The command has been answered with this code: a response is present and no command is in progress (30_encoding.md
R50, R52). -/
structure Answered (code : BitVec 2) (t : State) : Prop where
  atRest : t.busy = none
  present : t.respValid = true
  resp : t.resp = code

/-- What a claim may say of cell `a` of `BUF`: its byte below `FILL`, nothing at or above it ("A claim about the core must not
mention such a byte", 10_state.md R13). -/
def specifiedCell (s : State) (a : Nat) : Option Byte := if a < s.FILL.toNat then Memory.read s.BUF a else none

/-- The architectural state `H`, `BUF` (every cell), `FILL`, `LEN` is the same in two states; `ERR` is spoken of apart. -/
structure SameData (s t : State) : Prop where
  chain : t.H = s.H
  buf : t.BUF = s.BUF
  fill : t.FILL = s.FILL
  len : t.LEN = s.LEN

/-- `H`, `FILL`, `LEN` and the specified cells of `BUF` are the same in two states, as far as a claim may say when a WRITE has
been accepted: it may have left anything at or above `FILL` (10_state.md R13; U1). -/
structure SameValidData (s t : State) : Prop where
  chain : t.H = s.H
  cells : ∀ a, specifiedCell t a = specifiedCell s a
  fill : t.FILL = s.FILL
  len : t.LEN = s.LEN

/-- No payload byte was taken, nothing the host presents was taken, and no `Compress` event was emitted. -/
structure NothingTaken (s t : State) : Prop where
  host : t.host = s.host
  din : t.din = s.din
  trace : t.trace = s.trace

/-- The state after NEW (10_state.md R24; 70_reset_and_hazards.md R119), seen from the state before it: `H = IV`, `FILL`, `LEN`
and `ERR` zero, every cell of `BUF` unspecified, no command in progress, no response, and no event of the trace lost (R23:
"reset by nothing"). That `resp_valid` is low then is the model's choice (log entry 6). -/
structure Fresh (s t : State) : Prop where
  chain : t.H = IV
  fill : t.FILL = 0
  len : t.LEN = 0
  err : t.ERR = false
  atRest : t.busy = none
  silent : t.respValid = false
  buf : ∀ a, specifiedCell t a = none
  trace : ∃ es : List Event, t.trace = s.trace ++ es

/-- The events of some `Compress` calls of one context (10_state.md R23). -/
def eventsOf (side : Side) (blocks : List (List Byte)) : List Event := blocks.map fun b => ⟨b, side⟩

/-- The cells a WRITE of `n` bytes stores to, by the `MemWrite`s of BB.INPUT (40_block_buffer.md R60) from the entry value
`k` of `FILL`: `n` cells from `k` on if the window is not completed; otherwise the rest of a partly filled window, and
the remainder at the start. A WRITE that is refused, or that waits for payload, stores to none. -/
def writeStores (s : State) (n a : Nat) : Prop :=
  s.ERR = false ∧ counterOverflows s.LEN n = false ∧ n ≤ s.din.length ∧
    (if s.FILL.toNat + n < 64 then s.FILL.toNat ≤ a ∧ a < s.FILL.toNat + n
     else (s.FILL ≠ 0 ∧ s.FILL.toNat ≤ a ∧ a < 64) ∨ a < (s.FILL.toNat + n) % 64)

/-- The message absorbed since the last NEW or RESET, after one step from a state that has absorbed `M` (42_engine_commands.md
R97: "the concatenation, in order, of the payloads of all WRITE commands answered OK since the last NEW or RESET"). -/
def messageAfter (M : List Byte) (s : State) : List Byte :=
  match s.busy, s.host with
  | some _, .rst :: _ => []
  | some p, _ => if (takePayload p s).taken.length = p.n then M ++ (takePayload p s).taken else M
  | none, [] => M
  | none, .rst :: _ => []
  | none, .cmdCut _ _ :: _ => []
  | none, .cmd w :: _ =>
    match decodeWord w with
    | .ok .reset => []
    | .ok (.write n) =>
      if s.ERR || counterOverflows s.LEN n || decide (s.din.length < n) then M else M ++ s.din.take n
    | .ok .digest => M
    | .error _ => M

/-- A sequence of BB.INPUT calls, one payload after the other (40_block_buffer.md R61). -/
def bbInputAll : List (List Byte) → Context → Except Fault Context
  | [], c => .ok c
  | p :: ps, c =>
    match bbInput p c with
    | .ok c' => bbInputAll ps c'
    | .error f => .error f

/-- The same effect "on `H`, on `FILL` and on the valid bytes of `BUF`", and the same events (40_block_buffer.md R61). -/
structure SameEffect (c c' : Context) : Prop where
  chain : c'.H = c.H
  fill : c'.FILL = c.FILL
  valid : memRead c'.BUF 0 c'.FILL = memRead c.BUF 0 c.FILL
  trace : c'.trace = c.trace

/-- Two states that differ at most in cells of `BUF` at or above `FILL`: those "must not" be mentioned by a claim
(10_state.md R13). -/
structure SameButStale (s t : State) : Prop where
  fill : t.FILL = s.FILL
  below : ∀ a < s.FILL.toNat, Memory.read t.BUF a = Memory.read s.BUF a
  rest : t = { s with BUF := t.BUF }

end Sys2Proof.Machine
end

