-- ==== Sys2Proof/Certificates/Slice0/Obligations.lean ====
section
/-! DEFINITION. The statements for the provers. Each docstring names the rule of spec/ it states; a clause that rests on a
choice of the model names the log entry. -/

open Sys2Proof Sys2Proof.Machine

/-! ## Encoding -/

/-- Decode and encode agree on every well-formed command, so no bit of an encoding is dropped (30_encoding.md R42 to
R47). -/
def Obligations.DecodeInvertsEncode : Prop :=
  ∀ i : Instr, i.wf = true → decodeWord (encode i) = .ok i

/-- Every legal word has one meaning and is the word of the command it decodes to (30_encoding.md R44 to R47). -/
def Obligations.EncodeInvertsDecode : Prop :=
  ∀ (c : CommandWord) (i : Instr), decodeWord c = .ok i → i.wf = true ∧ encode i = c

/-- On a byte-wide transport a command is nine bytes, `OP` first, then `LEN64` most significant byte first; what follows is
left (30_encoding.md R42). -/
def Obligations.NineBytesDecodeToTheirCommand : Prop :=
  ∀ (i : Instr) (rest : List Byte), i.wf = true →
    (encodeBytes i).length = 9 ∧ decodeBytes (encodeBytes i ++ rest) = .ok (i, rest)

/-- A word selects a row of the opcode map exactly when `c AND mask = match` (30_encoding.md R44): the three rows, with the
table's own numbers, and the operand of WRITE as it stands in bits 63:0 (R43). -/
def Obligations.DecodeFollowsOpcodeMap : Prop :=
  ∀ c : CommandWord,
    (decodeWord c = .ok .reset ↔ c &&& 0xFFFFFFFFFFFFFFFFFF = 0x010000000000000000) ∧
    (∀ n, decodeWord c = .ok (.write n) ↔
      c &&& 0xFF0000000000000000 = 0x020000000000000000 ∧ n = (c.extractLsb' 0 64).toNat) ∧
    (decodeWord c = .ok .digest ↔ c &&& 0xFFFFFFFFFFFFFFFFFF = 0x030000000000000000)

/-- The illegal words are exactly those of 30_encoding.md R48; the decoder refuses them and no others. -/
def Obligations.IllegalWordsAreThoseListed : Prop :=
  ∀ c : CommandWord, IllegalWord c ↔ ∃ e, decodeWord c = .error e

/-- Words written out from the encodings of 30_encoding.md R45 to R48 decode as the rules say (a sanity statement). -/
def Obligations.WrittenWordsDecode : Prop :=
  decodeWord 0x010000000000000000 = .ok .reset ∧
  decodeWord 0x020000000000000003 = .ok (.write 3) ∧
  decodeWord 0x02FFFFFFFFFFFFFFFF = .ok (.write (2 ^ 64 - 1)) ∧
  decodeWord 0x030000000000000000 = .ok .digest ∧
  decodeWord 0x000000000000000000 = .error (.reservedOpcode 0x00) ∧
  decodeWord 0x038000000000000000 = .error (.operandNotZero 0x03)

/-! ## The step -/

/-- A step runs the decoded command: with no WRITE in progress, the command word at the head of what the host presents is
accepted and executed (42_engine_commands.md R85). Acceptance takes the word from what the host presents and drops
`resp_valid` (log entry 6); without a response `resp` and `dout` are free values (log entry 5). No other field changes. -/
def Obligations.StepRunsDecodedCommand : Prop :=
  ∀ (s : State) (w : CommandWord) (rest : List HostEvent) (i : Instr),
    s.busy = none → s.host = .cmd w :: rest → decodeWord w = .ok i →
      step s = exec i (acceptCommand rest s)

/-- An illegal word is answered ILLEGAL and changes no state, not even `ERR`; no payload byte is taken and the next command
stays presented (60_exceptions.md R105; 30_encoding.md R48). -/
def Obligations.IllegalWordAnsweredWithoutEffect : Prop :=
  ∀ (s : State) (w : CommandWord) (rest : List HostEvent),
    s.busy = none → s.host = .cmd w :: rest → IllegalWord w →
      ∃ t, step s = .next t ∧ Answered 2 t ∧ SameData s t ∧ t.ERR = s.ERR ∧ t.host = rest ∧ t.din = s.din ∧
        t.trace = s.trace

/-- The order of checks and the response of every command word (30_encoding.md R50; 42_engine_commands.md R86;
60_exceptions.md R110): legality first, then the failed state, then the overflow. A WRITE that passes its checks and
lacks payload is not answered yet (70_reset_and_hazards.md R123; that it waits in State is log entry 3). -/
def Obligations.ResponsesFollowTheOrderOfChecks : Prop :=
  ∀ (s t : State) (w : CommandWord) (rest : List HostEvent),
    s.busy = none → s.host = .cmd w :: rest → step s = .next t →
      (IllegalWord w → Answered 2 t) ∧
      (w = 0x010000000000000000 → Answered 0 t) ∧
      (opField w = 0x02 →
        (s.ERR = true → Answered 3 t) ∧
        (s.ERR = false → 2 ^ 64 ≤ s.LEN.toNat + 8 * (len64Field w).toNat → Answered 1 t) ∧
        (s.ERR = false → s.LEN.toNat + 8 * (len64Field w).toNat < 2 ^ 64 →
          ((len64Field w).toNat ≤ s.din.length → Answered 0 t) ∧
          (s.din.length < (len64Field w).toNat → stBusy t = true ∧ t.respValid = false))) ∧
      (w = 0x030000000000000000 → (s.ERR = true → Answered 3 t) ∧ (s.ERR = false → Answered 0 t))

/-- NEW, the event `rst`, wins over everything: between commands or while a WRITE waits, it leaves the reset state, gives no
response and takes no payload byte (42_engine_commands.md R87; 70_reset_and_hazards.md R118, R120). No cell of `BUF` is
specified after it (10_state.md R13, R24). The model's choice: `resp_valid` is low then (log entry 6); the events so far are
kept, and an idle core adds none (log entry 11); `rst` wins over payload that stands on `din` (log entry 4). -/
def Obligations.RstLeavesTheFreshState : Prop :=
  ∀ (s : State) (rest : List HostEvent), s.host = .rst :: rest →
    ∃ t, step s = .next t ∧ Fresh s t ∧ t.host = rest ∧ t.din = s.din ∧ cmdReady t = true ∧
      (s.busy = none → t.trace = s.trace)

/-- `rst` asserted during a command abandons it: no response, and the reset state whatever the command was; the payload
bytes not taken stay (70_reset_and_hazards.md R120). Only a WRITE that passes its checks takes payload, at most `LEN64` bytes
(30_encoding.md R41, R49); `taken` is the host's number of them (log entry 4). No cell of `BUF` is specified after it (log
entry 17 says what the model holds there). The model's choice: `resp_valid` is low then (log entry 6). -/
def Obligations.RstDuringCommandAbandonsIt : Prop :=
  ∀ (s : State) (w : CommandWord) (taken : Nat) (rest : List HostEvent),
    s.busy = none → s.host = .cmdCut w taken :: rest →
      ∃ t, step s = .next t ∧ Fresh s t ∧ t.host = rest ∧
        (opField w ≠ 0x02 ∨ s.ERR = true ∨ 2 ^ 64 ≤ s.LEN.toNat + 8 * (len64Field w).toNat → t.din = s.din) ∧
        (opField w = 0x02 → s.ERR = false → s.LEN.toNat + 8 * (len64Field w).toNat < 2 ^ 64 →
          t.din = s.din.drop (min taken (len64Field w).toNat))

/-- While a WRITE is in progress no command is accepted: what the host presents stays, unless it is `rst`
(70_reset_and_hazards.md R122; 30_encoding.md R41). That a WRITE is in progress between steps is log entry 3. -/
def Obligations.BusyCoreAcceptsNoCommand : Prop :=
  ∀ (s t : State) (p : Pending), s.busy = some p → (∀ rest, s.host ≠ .rst :: rest) → step s = .next t →
    t.host = s.host ∧ (t.busy = none → t.respValid = true)

/-! ## The commands -/

/-- RESET restores the freshly constructed state and answers OK in every state, failed or not; the bytes waiting in `BUF` are
dropped and nothing is compressed (42_engine_commands.md R88; 40_block_buffer.md R56). With `FILL = 0` every cell of `BUF` is
unspecified, so nothing more may be claimed of one (10_state.md R13). -/
def Obligations.ResetRestoresFreshState : Prop :=
  ∀ s : State, ∃ t, exec .reset s = .next t ∧ Answered 0 t ∧
    t.H = ⟨0x67452301, 0xEFCDAB89, 0x98BADCFE, 0x10325476, 0xC3D2E1F0⟩ ∧ t.FILL = 0 ∧ t.LEN = 0 ∧ t.ERR = false ∧
    (∀ a, specifiedCell t a = none) ∧ NothingTaken s t

/-- An accepted WRITE whose payload is there completes: `LEN <- LEN + 8n`, BB.INPUT absorbs exactly the first `n` bytes of
`din`, one `Compress` per completed block, response OK (42_engine_commands.md R89; 40_block_buffer.md R61). -/
def Obligations.WriteAbsorbsItsPayload : Prop :=
  ∀ (s : State) (n : Nat) (v : List Byte), HoldsBytes s v → s.ERR = false →
    s.LEN.toNat + 8 * n < 2 ^ 64 → n ≤ s.din.length →
      ∃ t, exec (.write n) s = .next t ∧ Answered 0 t ∧
        t.LEN.toNat = s.LEN.toNat + 8 * n ∧
        t.H = compressAll s.H (wholeBlocks (v ++ s.din.take n)) ∧
        t.FILL.toNat = (s.FILL.toNat + n) % 64 ∧
        HoldsBytes t (remainder (v ++ s.din.take n)) ∧
        t.ERR = false ∧ t.host = s.host ∧ t.din = s.din.drop n ∧
        t.trace = s.trace ++ eventsOf .live (wholeBlocks (v ++ s.din.take n))

/-- The frame of WRITE in every case it answers: every cell that is valid after it and that it does not store to (of a cell at
or above `FILL` nothing may be claimed, 10_state.md R13, U1), `ERR` unless it overflows, and everything when it is refused; a
refused WRITE takes no payload byte (42_engine_commands.md R86, R89; 30_encoding.md R49). The last clause, that a WRITE whose
payload is short changes no data register and records no event, is the model's choice (log entry 3; 70_reset_and_hazards.md
R123 gives it no transition). -/
def Obligations.WriteLeavesTheRestAlone : Prop :=
  ∀ (s t : State) (n : Nat), exec (.write n) s = .next t →
    (∀ a < t.FILL.toNat, ¬ writeStores s n a → specifiedCell t a = specifiedCell s a) ∧
    t.host = s.host ∧
    t.ERR = (s.ERR || counterOverflows s.LEN n) ∧
    (s.ERR = true ∨ counterOverflows s.LEN n = true → SameData s t ∧ NothingTaken s t) ∧
    (s.din.length < n → SameValidData s t ∧ t.trace = s.trace)

/-- OverflowError: the WRITE is rejected as a whole, no payload byte is taken, `LEN`, `H`, `BUF`, `FILL` keep their values,
`ERR <- 1`, and the response is OVERFLOW (60_exceptions.md R104). -/
def Obligations.OverflowRejectsTheWholeWrite : Prop :=
  ∀ (s : State) (n : Nat), s.ERR = false → 2 ^ 64 ≤ s.LEN.toNat + 8 * n →
    ∃ t, exec (.write n) s = .next t ∧ Answered 1 t ∧ t.ERR = true ∧ SameData s t ∧ NothingTaken s t

/-- The overflow check exactly: in hardware terms, and as a bound on the total number of bytes (42_engine_commands.md
R90). -/
def Obligations.OverflowCheckIsExact : Prop :=
  (∀ LEN n : BitVec 64, counterOverflows LEN n.toNat = true ↔
    (n.extractLsb' 61 3 ≠ 0 ∨ 2 ^ 64 ≤ LEN.toNat + (n <<< 3).toNat)) ∧
  (∀ LEN n : BitVec 64, counterOverflowsHw LEN n = counterOverflows LEN n.toNat) ∧
  (∀ (LEN : BitVec 64) (N n : Nat), LEN.toNat = 8 * N →
    (counterOverflows LEN n = true ↔ 2 ^ 61 ≤ N + n) ∧
    (counterOverflows LEN n = false → (advanceCounter LEN n).toNat = 8 * (N + n) ∧ (advanceCounter LEN n).toNat ≤ 2 ^ 64 - 8))

/-- The failed state: WRITE, with any `n`, and DIGEST are refused with FAILED, no state change and no payload byte taken;
RESET is accepted and clears `ERR` (60_exceptions.md R106). -/
def Obligations.FailedStateRefusesDataCommands : Prop :=
  ∀ s : State, s.ERR = true →
    (∀ n, ∃ t, exec (.write n) s = .next t ∧ Answered 3 t ∧ SameData s t ∧ t.ERR = true ∧ NothingTaken s t) ∧
    (∃ t, exec .digest s = .next t ∧ Answered 3 t ∧ SameData s t ∧ t.ERR = true ∧ NothingTaken s t) ∧
    (∃ t, exec .reset s = .next t ∧ Answered 0 t ∧ t.ERR = false)

/-- DIGEST compresses one or two blocks on its snapshot, as 42_engine_commands.md R95 lays them out, and returns the
serialization of the result; the next state is the old one but for the response, `dout` and the event trace. -/
def Obligations.DigestCompressesTheFinalBlocks : Prop :=
  ∀ (s : State) (v : List Byte), HoldsBytes s v → s.ERR = false →
    exec .digest s = .next { s with
      busy := none, respValid := true, resp := 0,
      dout := digestPort (serialize (compressAll s.H (finalBlocks v s.LEN))),
      trace := s.trace ++ eventsOf .snapshot (finalBlocks v s.LEN) }

/-- DIGEST does not change the live engine: `H`, `BUF` (every cell, valid or not), `FILL`, `LEN` and `ERR` are what they
were, only the event trace grows, by one or two events marked as snapshot events (42_engine_commands.md R93). -/
def Obligations.DigestLeavesTheLiveEngine : Prop :=
  ∀ s t : State, exec .digest s = .next t →
    SameData s t ∧ t.ERR = s.ERR ∧ t.host = s.host ∧ t.din = s.din ∧
    ∃ es : List Event, t.trace = s.trace ++ es ∧ (∀ e ∈ es, e.side = .snapshot) ∧
      (s.ERR = true → es = []) ∧ (s.ERR = false → es.length = 1 ∨ es.length = 2)

/-- DIGEST is idempotent: issued again at once it returns the same bytes (42_engine_commands.md R96). -/
def Obligations.DigestTwiceReturnsTheSameBytes : Prop :=
  ∀ s t : State, s.ERR = false → exec .digest s = .next t →
    ∃ u, exec .digest t = .next u ∧ Answered 0 u ∧ u.dout = t.dout ∧ SameData s u ∧ u.ERR = false

/-- A WRITE whose payload is short waits: it takes what is there, nothing else changes, it is not answered and the core is
busy (70_reset_and_hazards.md R123; that the bytes there are taken at once is the model's reading, log entry 3). -/
def Obligations.ShortPayloadWaits : Prop :=
  ∀ (s : State) (n : Nat), s.ERR = false → s.LEN.toNat + 8 * n < 2 ^ 64 → s.din.length < n →
    ∃ t, exec (.write n) s = .next t ∧ t.busy = some ⟨n, s.din⟩ ∧ t.din = [] ∧ t.respValid = false ∧
      stBusy t = true ∧ dinReady t = true ∧ SameValidData s t ∧ t.ERR = false ∧ t.host = s.host ∧ t.trace = s.trace

/-- A WRITE that waited completes when the rest of its payload comes, with the effect of one WRITE whose payload was there
at once (70_reset_and_hazards.md R123; the wait itself is log entry 3). -/
def Obligations.WaitingWriteCompletesWhenFed : Prop :=
  ∀ (s t : State) (n : Nat) (v more : List Byte), HoldsBytes s v → s.ERR = false →
    s.LEN.toNat + 8 * n < 2 ^ 64 → s.din.length < n → n ≤ s.din.length + more.length →
    (∀ rest, s.host ≠ .rst :: rest) → exec (.write n) s = .next t →
      ∃ u u', step { t with din := more } = .next u ∧ exec (.write n) { s with din := s.din ++ more } = .next u' ∧
        Answered 0 u ∧ SameValidData u' u ∧ u.ERR = u'.ERR ∧ NothingTaken u' u

/-- Every step of a WRITE that waits, with no `rst` next, in any state that meets the invariant: when the bytes on `din` are
enough, it is answered OK with the whole effect of the WRITE on the bytes taken before and now (42_engine_commands.md R89);
when they are still short it takes them, stays busy and changes no data register (70_reset_and_hazards.md R123). That the
bytes are held and the effect comes with the last of them is the model's choice (log entry 3). -/
def Obligations.WaitingWriteTakesItsPayload : Prop :=
  ∀ (s : State) (p : Pending), Inv s → s.busy = some p → (∀ rest, s.host ≠ .rst :: rest) →
    (p.n ≤ p.taken.length + s.din.length → ∀ v, HoldsBytes s v →
      ∃ t, step s = .next t ∧ Answered 0 t ∧
        t.LEN.toNat = s.LEN.toNat + 8 * p.n ∧
        t.H = compressAll s.H (wholeBlocks (v ++ (p.taken ++ s.din).take p.n)) ∧
        t.FILL.toNat = (s.FILL.toNat + p.n) % 64 ∧
        HoldsBytes t (remainder (v ++ (p.taken ++ s.din).take p.n)) ∧
        t.ERR = false ∧ t.host = s.host ∧ t.din = s.din.drop (p.n - p.taken.length) ∧
        t.trace = s.trace ++ eventsOf .live (wholeBlocks (v ++ (p.taken ++ s.din).take p.n))) ∧
    (p.taken.length + s.din.length < p.n →
      ∃ t, step s = .next t ∧ t.busy = some ⟨p.n, p.taken ++ s.din⟩ ∧ t.din = [] ∧ t.respValid = false ∧
        stBusy t = true ∧ dinReady t = true ∧ SameValidData s t ∧ t.ERR = false ∧ t.host = s.host ∧ t.trace = s.trace)

/-! ## The block buffer and the padding -/

/-- What BB.INPUT computes: `floor(L / 64)` blocks of the valid bytes followed by the payload, in order; the rest stays.
Consequently a sequence of calls from `FILL = 0` has the same effect as one call on the concatenation
(40_block_buffer.md R61). -/
def Obligations.BufferInputIgnoresChunking : Prop :=
  (∀ (c : Context) (v bytes : List Byte), c.FILL ≤ 63 → memRead c.BUF 0 c.FILL = .ok v →
    ∃ c', bbInput bytes c = .ok c' ∧ c'.side = c.side ∧
      c'.H = compressAll c.H (wholeBlocks (v ++ bytes)) ∧
      c'.trace = c.trace ++ eventsOf c.side (wholeBlocks (v ++ bytes)) ∧
      c'.FILL = (c.FILL + bytes.length) % 64 ∧
      memRead c'.BUF 0 c'.FILL = .ok (remainder (v ++ bytes))) ∧
  (∀ (c : Context) (ps : List (List Byte)), c.FILL = 0 →
    ∃ c1 c2, bbInputAll ps c = .ok c1 ∧ bbInput ps.flatten c = .ok c2 ∧ SameEffect c1 c2)

/-- BB.PAD(8) drains once inside itself exactly when the entry `FILL` is 56 or more; the marker, the zeros before the drain
and the zeros after it are those of 40_block_buffer.md R64, and the exit `FILL` is 56. -/
def Obligations.PaddingDrainsFromFillFiftySix : Prop :=
  ∀ (c : Context) (v : List Byte), c.FILL ≤ 63 → memRead c.BUF 0 c.FILL = .ok v →
    ∃ c', bbPad 8 c = .ok c' ∧ c'.FILL = 56 ∧ c'.side = c.side ∧
      (c.FILL ≤ 55 → c'.H = c.H ∧ c'.trace = c.trace ∧
        memRead c'.BUF 0 56 = .ok (v ++ [0x80] ++ zeros (55 - c.FILL))) ∧
      (56 ≤ c.FILL → c'.H = compress c.H (v ++ [0x80] ++ zeros (63 - c.FILL)) ∧
        c'.trace = c.trace ++ [⟨v ++ [0x80] ++ zeros (63 - c.FILL), c.side⟩] ∧
        memRead c'.BUF 0 56 = .ok (zeros 56))

/-- The padded message is whole blocks, and its zero run is the shortest that makes it so (20_memory.md R31). -/
def Obligations.PaddedMessageIsWholeBlocks : Prop :=
  ∀ M : List Byte, (paddedMessage M).length % 64 = 0 ∧ padZeros M.length ≤ 63 ∧
    ∀ z < padZeros M.length, (M ++ [0x80] ++ zeros z ++ be64Bytes (BitVec.ofNat 64 (8 * M.length))).length % 64 ≠ 0

/-! ## The compression function -/

/-- Addition and rotation: `add32` is the sum modulo 2^32 in any grouping; `rotl32(x, n)` moves bit `i` to bit
`(i + n) mod 32` (41_compression.md R68, R69). -/
def Obligations.AddWrapsAndRotateMovesBits : Prop :=
  (∀ x y : Word, (add32 x y).toNat = (x.toNat + y.toNat) % 2 ^ 32 ∧ add32 x y = add32 y x) ∧
  (∀ x y z : Word, add32 (add32 x y) z = add32 x (add32 y z)) ∧
  (∀ (x : Word) (n i : Nat), 0 < n → n < 32 → i < 32 → (rotl32 x n).getLsbD ((i + n) % 32) = x.getLsbD i)

/-- The round functions bit by bit, with their corner cases: choose, parity, majority, parity (41_compression.md R72 to
R75). -/
def Obligations.RoundFunctionsBitByBit : Prop :=
  (∀ (b c d : Word) (i : Nat), i < 32 →
    (F0 b c d).getLsbD i = (if b.getLsbD i then c.getLsbD i else d.getLsbD i) ∧
    (F1 b c d).getLsbD i = (b.getLsbD i ^^ c.getLsbD i ^^ d.getLsbD i) ∧
    (F2 b c d).getLsbD i =
      ((b.getLsbD i && c.getLsbD i) || (b.getLsbD i && d.getLsbD i) || (c.getLsbD i && d.getLsbD i)) ∧
    (F3 b c d).getLsbD i = (b.getLsbD i ^^ c.getLsbD i ^^ d.getLsbD i)) ∧
  (∀ b c d x : Word,
    F0 0xFFFFFFFF c d = c ∧ F0 0 c d = d ∧ F0 b x x = x ∧
    F1 x x d = d ∧ F1 0 0 0 = 0 ∧ F1 0xFFFFFFFF 0xFFFFFFFF 0xFFFFFFFF = 0xFFFFFFFF ∧
    F2 x x d = x ∧ F2 0 c d = c &&& d ∧ F2 0xFFFFFFFF c d = c ||| d ∧ F3 b c d = F1 b c d)

/-- The message schedule: 80 words, the first 16 parsed big-endian from the block, every later one from four earlier
ones, rotated by 1 (41_compression.md R76, R77). -/
def Obligations.ScheduleFollowsItsRecurrence : Prop :=
  ∀ block : List Byte, block.length = 64 →
    (schedule block).length = 80 ∧
    (∀ i < 16, wordAt (schedule block) i =
      be32 (byteAt block (4 * i)) (byteAt block (4 * i + 1)) (byteAt block (4 * i + 2)) (byteAt block (4 * i + 3))) ∧
    (∀ i, 16 ≤ i → i < 80 → wordAt (schedule block) i =
      rotl32 (wordAt (schedule block) (i - 3) ^^^ wordAt (schedule block) (i - 8) ^^^
        wordAt (schedule block) (i - 14) ^^^ wordAt (schedule block) (i - 16)) 1)

/-- One round of the mixer, with the function and the constant of its range (41_compression.md R71, R79). -/
def Obligations.RoundMixesByItsRange : Prop :=
  ∀ (W : List Word) (t : Nat) (v : Work), t < 80 →
    round W t v =
      { a := add32 (add32 (add32 (add32 (rotl32 v.a 5)
               (if t < 20 then F0 v.b v.c v.d else if t < 40 then F1 v.b v.c v.d
                else if t < 60 then F2 v.b v.c v.d else F3 v.b v.c v.d)) v.e)
               (if t < 20 then 0x5A827999 else if t < 40 then 0x6ED9EBA1
                else if t < 60 then 0x8F1BBCDC else 0xCA62C1D6)) (wordAt W t),
        b := v.a, c := rotl32 v.b 30, d := v.c, e := v.d }

/-- INITWORK, ADDBACK and the whole of COMPRESS: the working variables start as the words of `H`; each word of the result is
the sum mod 2^32 of the word of `H` and its working variable; and between the two, round `t` is applied for `t` = 0 to 79 in
increasing order, on the schedule of the block (41_compression.md R78, R80, R81, R83). -/
def Obligations.CompressRunsEightyRoundsThenAddsBack : Prop :=
  (∀ H : Chain, initWork H = { a := H.h0, b := H.h1, c := H.h2, d := H.h3, e := H.h4 }) ∧
  (∀ (H : Chain) (v : Work),
    (addBack H v).h0.toNat = (H.h0.toNat + v.a.toNat) % 2 ^ 32 ∧
    (addBack H v).h1.toNat = (H.h1.toNat + v.b.toNat) % 2 ^ 32 ∧
    (addBack H v).h2.toNat = (H.h2.toNat + v.c.toNat) % 2 ^ 32 ∧
    (addBack H v).h3.toNat = (H.h3.toNat + v.d.toNat) % 2 ^ 32 ∧
    (addBack H v).h4.toNat = (H.h4.toNat + v.e.toNat) % 2 ^ 32) ∧
  (∀ (H : Chain) (block : List Byte) (vars : Nat → Work), block.length = 64 → vars 0 = initWork H →
    (∀ t < 80, vars (t + 1) = round (schedule block) t (vars t)) → compress H block = addBack H (vars 80))

/-- A 16-word schedule is enough: the ring implementation of 41_compression.md R82 computes `Compress`. -/
def Obligations.SixteenWordRingComputesCompress : Prop :=
  ∀ (H : Chain) (block : List Byte), block.length = 64 → compressRing H block = compress H block

/-! ## Byte order and the digest port -/

/-- The digest is 20 bytes, each word big-endian: `D[4j + m] = X[j][31 - 8m : 24 - 8m]`; on `dout` byte 0 is in the most
significant position (42_engine_commands.md R94; 30_encoding.md R51). -/
def Obligations.DigestBytesAreBigEndian : Prop :=
  ∀ X : Chain, (serialize X).length = 20 ∧
    (∀ m < 4,
      (serialize X)[m]? = some (X.h0.extractLsb' (24 - 8 * m) 8) ∧
      (serialize X)[4 + m]? = some (X.h1.extractLsb' (24 - 8 * m) 8) ∧
      (serialize X)[8 + m]? = some (X.h2.extractLsb' (24 - 8 * m) 8) ∧
      (serialize X)[12 + m]? = some (X.h3.extractLsb' (24 - 8 * m) 8) ∧
      (serialize X)[16 + m]? = some (X.h4.extractLsb' (24 - 8 * m) 8)) ∧
    digestPort (serialize X) = X.h0 ++ X.h1 ++ X.h2 ++ X.h3 ++ X.h4 ∧
    (∀ k < 20, (serialize X)[k]? = some ((digestPort (serialize X)).extractLsb' (152 - 8 * k) 8))

/-- `be32_bytes` is inverse to `be32`, and the 64-bit length is written most significant byte first (00_scope.md R9;
20_memory.md R26, R28). -/
def Obligations.ByteOrderRoundTrips : Prop :=
  (∀ (w : Word) (b0 b1 b2 b3 : Byte), be32Bytes w = [b0, b1, b2, b3] ↔ be32 b0 b1 b2 b3 = w) ∧
  (∀ v : BitVec 64, beNat (be64Bytes v) = v.toNat ∧ (be64Bytes v).length = 8)

/-- HEXDIGEST at the host: 40 characters, the digits of `D[k][7:4]` and `D[k][3:0]`, "taken from `0123456789abcdef`"
(42_engine_commands.md R98). -/
def Obligations.HexDigestHasFortyCharacters : Prop :=
  ∀ X : Chain, (hexDigest (serialize X)).length = 40 ∧
    ∀ (k : Nat) (b : Byte), (serialize X)[k]? = some b →
      (hexDigest (serialize X))[2 * k]? = "0123456789abcdef".toList[(b.extractLsb' 4 4).toNat]? ∧
      (hexDigest (serialize X))[2 * k + 1]? = "0123456789abcdef".toList[(b.extractLsb' 0 4).toNat]?

/-! ## The whole machine -/

/-- The state after NEW has the values of 10_state.md R24 and 70_reset_and_hazards.md R119, and its status outputs read as
they say. That nothing is presented and `resp_valid` is low is the model's choice (log entries 2, 6). -/
def Obligations.ResetStateHasItsValues : Prop :=
  State.reset.H = ⟨0x67452301, 0xEFCDAB89, 0x98BADCFE, 0x10325476, 0xC3D2E1F0⟩ ∧ State.reset.FILL = 0 ∧
  State.reset.LEN = 0 ∧ State.reset.ERR = false ∧ State.reset.trace = [] ∧
  cmdReady State.reset = true ∧ stBusy State.reset = false ∧ stErr State.reset = false ∧ stFill State.reset = 0

/-- The invariant holds after NEW (10_state.md R15, R17, R24). -/
def Obligations.ResetMeetsTheInvariant : Prop := Inv State.reset

/-- Every step keeps the invariant: the buffer in its canonical form, `FILL` at most 63 and equal to `(LEN / 8) mod 64`, the
cells below it written, `LEN` a multiple of 8, a waiting WRITE still owed bytes and not overflowing, every event with 64
bytes (10_state.md R15, R17; 40_block_buffer.md R65). R15 and R65 speak of the core at rest only: what `Inv` says while a WRITE
waits (it has passed its checks and is owed bytes, and `FILL`, the cells and `LEN` are those from before it) is the model's
choice (log entry 3; 70_reset_and_hazards.md R123). -/
def Obligations.StepKeepsTheInvariant : Prop :=
  ∀ s t : State, Inv s → step s = .next t → Inv t

/-- From a state that meets the invariant no step stops: everything but the three exceptions is valid, and no precondition
of a block-buffer operation is ever broken (60_exceptions.md R107; 40_block_buffer.md R57 to R59, R66). That an idle core
and a waiting WRITE step at all is the model's choice (log entries 1, 3). -/
def Obligations.InvariantStateNeverStops : Prop :=
  ∀ s : State, Inv s → ∃ t, step s = .next t

/-- The cells of `BUF` at or above `FILL` influence nothing: not `H`, not a digest, not a response, not the valid bytes of any
later state (40_block_buffer.md R66; 10_state.md R13). -/
def Obligations.StaleCellsInfluenceNothing : Prop :=
  ∀ s s' t : State, s.FILL.toNat ≤ 63 → SameButStale s s' → step s = .next t →
    ∃ t', step s' = .next t' ∧ SameButStale t t'

/-- The failed state is entered only by a WRITE that overflows, and left only by RESET or by NEW (42_engine_commands.md R99;
10_state.md R18). -/
def Obligations.OnlyOverflowFailsAndOnlyResetRevives : Prop :=
  ∀ s t : State, step s = .next t →
    (s.ERR = false → t.ERR = true →
      ∃ w n rest, s.host = .cmd w :: rest ∧ decodeWord w = .ok (.write n) ∧ 2 ^ 64 ≤ s.LEN.toNat + 8 * n) ∧
    (s.ERR = true → t.ERR = false →
      ∃ rest, s.host = .rst :: rest ∨ (∃ w k, s.host = .cmdCut w k :: rest) ∨
        (∃ w, s.host = .cmd w :: rest ∧ decodeWord w = .ok .reset))

/-- `H` is written by three things only: NEW and RESET load `IV`, and `Compress` adds a block in; every such call is a live
event of the trace (10_state.md R10, R23). That a command cut short by `rst` leaves no event, whatever it had compressed, is
the model's choice (log entry 11), and so is that a WRITE has its whole effect with its last byte (log entry 3). -/
def Obligations.OnlyResetsAndCompressWriteTheChain : Prop :=
  ∀ s t : State, step s = .next t →
    ∃ es : List Event, t.trace = s.trace ++ es ∧
      (t.H = compressAll s.H ((es.filter fun e => e.side = .live).map Event.block) ∨
        (t.H = IV ∧ es = [] ∧ ∃ ev rest, s.host = ev :: rest ∧
          (ev = .rst ∨ (∃ w k, ev = .cmdCut w k) ∨ (∃ w, ev = .cmd w ∧ decodeWord w = .ok .reset))))

/-- The counter is never decreased except by reset and never wraps: the WRITE accepted, or the WRITE that waited (log entry 3),
adds 8 times its own length when it is answered OK; otherwise a step leaves `LEN` alone, or resets it (60_exceptions.md R114;
10_state.md R16). -/
def Obligations.CounterOnlyGrowsUntilReset : Prop :=
  ∀ s t : State, Inv s → step s = .next t →
    (∀ w n rest, s.busy = none → s.host = .cmd w :: rest → decodeWord w = .ok (.write n) → Answered 0 t →
      t.LEN.toNat = s.LEN.toNat + 8 * n) ∧
    (∀ p, s.busy = some p → Answered 0 t → t.LEN.toNat = s.LEN.toNat + 8 * p.n) ∧
    (t.LEN = s.LEN ∨
      (Answered 0 t ∧ ((∃ p, s.busy = some p) ∨
        (s.busy = none ∧ ∃ w n rest, s.host = .cmd w :: rest ∧ decodeWord w = .ok (.write n)))) ∨
      (t.LEN = 0 ∧ ∃ ev rest, s.host = ev :: rest ∧
        (ev = .rst ∨ (s.busy = none ∧
          ((∃ w k, ev = .cmdCut w k) ∨ (∃ w, ev = .cmd w ∧ decodeWord w = .ok .reset))))))

/-- The status outputs: `st_err` and, at rest, `st_fill` show the registers; `st_fill` never shows more than 64, and at rest
at most 63 (30_encoding.md R52; that it is free up to 64 while busy is log entry 7). R40 has `din_ready` "high only", and
`cmd_ready` "low while": that they are high exactly while a WRITE waits, and exactly while none does, is the model's reading
(log entry 14). -/
def Obligations.StatusOutputsShowTheRegisters : Prop :=
  ∀ s : State, stErr s = s.ERR ∧ (stBusy s = false → stFill s = s.FILL) ∧
    (Inv s → (stFill s).toNat ≤ 64 ∧ (stBusy s = false → (stFill s).toNat ≤ 63) ∧ dinReady s = stBusy s) ∧
    cmdReady s = !stBusy s

/-- Every step carries the message absorbed so far to the message absorbed after it, so `H`, `FILL`, the valid bytes and
`LEN` are always those of the payloads accepted since the last NEW or RESET (42_engine_commands.md R97; 10_state.md R10,
R17). A waiting WRITE counts when its last byte comes (log entry 3). -/
def Obligations.StepTracksTheAbsorbedMessage : Prop :=
  ∀ (M : List Byte) (s t : State), Inv s → Absorbed M s → step s = .next t → Absorbed (messageAfter M s) t

/-- DIGEST of an engine that has absorbed `M` returns the digest of `M`, as the function "stated without the machinery", and
leaves the engine ready to go on (42_engine_commands.md R97, R96). -/
def Obligations.DigestReturnsTheMessageDigest : Prop :=
  ∀ (M : List Byte) (s : State), Absorbed M s → s.ERR = false →
    ∃ t, exec .digest s = .next t ∧ Answered 0 t ∧ t.dout = digestPort (sha1 M) ∧ Absorbed M t

/-- Any sequence of WRITEs followed by DIGEST returns the digest of the concatenation of their payloads: for every list of
payloads short of 2^61 bytes in all, from every state that has absorbed nothing since the last reset
(42_engine_commands.md R97; 40_block_buffer.md R61; 20_memory.md R36). That commands and payload are presented as two lists
is log entry 2. -/
def Obligations.WritesThenDigestReturnTheDigest : Prop :=
  ∀ (s : State) (ps : List (List Byte)) (rest : List HostEvent) (more : List Byte),
    Inv s → Absorbed [] s → s.ERR = false → s.busy = none → ps.flatten.length < 2 ^ 61 →
    s.host = ps.map (fun p => HostEvent.cmd (encode (.write p.length))) ++ .cmd (encode .digest) :: rest →
    s.din = ps.flatten ++ more →
      ∃ t, Host.Core.run Sys2Proof.core (ps.length + 1) s = .next t ∧ Answered 0 t ∧
        t.dout = digestPort (sha1 ps.flatten) ∧ Absorbed ps.flatten t ∧ t.host = rest ∧ t.din = more

/-- Hashing after RESET equals hashing on a freshly constructed engine: after RESET, in any state that meets the invariant,
the engine has absorbed nothing, as after NEW (42_engine_commands.md R88, R97). -/
def Obligations.ResetAbsorbsNothing : Prop :=
  Absorbed [] State.reset ∧
  ∀ s : State, Inv s → ∃ t, exec .reset s = .next t ∧ Inv t ∧ Absorbed [] t
end

