-- ==== Sys2Proof/Laws/Memory.lean ====
section
/-! SUPPORT. The laws of the block buffer as memory: read after write, what a write leaves alone, the canonical form kept
by every operation and determined by what it reads as, and the two primitives in terms of single cells. -/

namespace Sys2Proof.Laws

open Sys2Proof.Machine

/-! One cell. -/

@[simp] theorem read_nil (x : Nat) : Memory.read [] x = none := rfl

theorem read_write (m : List Host.Cell) (a x : Nat) (b : Byte) :
    Memory.read (Memory.write m a b) x = if x = a then some b else Memory.read m x := by
  induction m with
  | nil => simp [Memory.write, Memory.read, eq_comm]
  | cons c m ih =>
    obtain ⟨a', b'⟩ := c
    simp only [Memory.write]
    split_ifs with h1 h2 h3 h3 h3 <;> simp_all [Memory.read, eq_comm]

@[simp] theorem read_write_same (m : List Host.Cell) (a : Nat) (b : Byte) :
    Memory.read (Memory.write m a b) a = some b := by simp [read_write]

theorem read_write_other (m : List Host.Cell) {a x : Nat} (b : Byte) (h : x ≠ a) :
    Memory.read (Memory.write m a b) x = Memory.read m x := by simp [read_write, h]

/-- What a run of stores leaves: the stored byte inside the run, the old cell outside it. -/
theorem read_writeBytes (m : List Host.Cell) (a x : Nat) (s : List Byte) :
    Memory.read (Memory.writeBytes m a s) x =
      if a ≤ x ∧ x < a + s.length then s[x - a]? else Memory.read m x := by
  induction s generalizing m a with
  | nil => simp only [Memory.writeBytes, List.length_nil]; rw [if_neg (by omega)]
  | cons b s ih =>
    rw [Memory.writeBytes, ih, List.length_cons, read_write]
    by_cases hx : x = a
    · subst hx; simp
    · by_cases h : a ≤ x ∧ x < a + (s.length + 1)
      · rw [if_pos (by omega), if_pos h, show x - a = (x - (a + 1)) + 1 by omega]
        simp
      · rw [if_neg (by omega), if_neg h, if_neg hx]

/-! The canonical form. -/

theorem risingFrom_mono {lo lo' : Nat} {m : List Host.Cell} (h : lo' ≤ lo)
    (hm : Memory.risingFrom lo m = true) : Memory.risingFrom lo' m = true := by
  cases m with
  | nil => rfl
  | cons c m =>
    simp only [Memory.risingFrom, Bool.and_eq_true, decide_eq_true_eq] at *
    exact ⟨by omega, hm.2⟩

theorem risingFrom_write {lo a : Nat} {m : List Host.Cell} (b : Byte) (hlo : lo ≤ a)
    (hm : Memory.risingFrom lo m = true) : Memory.risingFrom lo (Memory.write m a b) = true := by
  induction m generalizing lo with
  | nil => simp [Memory.write, Memory.risingFrom, hlo]
  | cons c m ih =>
    obtain ⟨a', b'⟩ := c
    simp only [Memory.risingFrom, Bool.and_eq_true, decide_eq_true_eq] at hm
    simp only [Memory.write]
    split_ifs with h1 h2
    · simp only [Memory.risingFrom, Bool.and_eq_true, decide_eq_true_eq]
      exact ⟨hlo, h1, hm.2⟩
    · subst h2
      simp only [Memory.risingFrom, Bool.and_eq_true, decide_eq_true_eq]
      exact hm
    · simp only [Memory.risingFrom, Bool.and_eq_true, decide_eq_true_eq]
      exact ⟨hm.1, ih (by omega) hm.2⟩

theorem inRange_write {a : Nat} {m : List Host.Cell} (b : Byte) (ha : a < 64)
    (hm : m.all (fun c => decide (c.1 < 64)) = true) :
    (Memory.write m a b).all (fun c => decide (c.1 < 64)) = true := by
  induction m with
  | nil => simpa [Memory.write] using ha
  | cons c m ih =>
    obtain ⟨a', b'⟩ := c
    simp only [List.all_cons, Bool.and_eq_true, decide_eq_true_eq] at hm
    simp only [Memory.write]
    split_ifs <;> simp only [List.all_cons, Bool.and_eq_true, decide_eq_true_eq]
    · exact ⟨ha, hm⟩
    · exact ⟨ha, hm.2⟩
    · exact ⟨hm.1, ih hm.2⟩

/-- A store of one byte keeps the canonical form. -/
theorem wf_write {a : Nat} {m : List Host.Cell} (b : Byte) (ha : a < 64)
    (hm : Memory.wf m = true) : Memory.wf (Memory.write m a b) = true := by
  simp only [Memory.wf, Bool.and_eq_true] at *
  exact ⟨risingFrom_write b (Nat.zero_le a) hm.1, inRange_write b ha hm.2⟩

theorem wf_writeBytes {a : Nat} {m : List Host.Cell} {s : List Byte} (ha : a + s.length ≤ 64)
    (hm : Memory.wf m = true) : Memory.wf (Memory.writeBytes m a s) = true := by
  induction s generalizing a m with
  | nil => exact hm
  | cons b s ih =>
    rw [List.length_cons] at ha
    exact ih (by omega) (wf_write b (by omega) hm)

@[simp] theorem wf_nil : Memory.wf [] = true := rfl

theorem read_of_lt {lo x : Nat} {m : List Host.Cell} (hx : x < lo) (hm : Memory.risingFrom lo m = true) :
    Memory.read m x = none := by
  induction m generalizing lo with
  | nil => rfl
  | cons c m ih =>
    obtain ⟨a, b⟩ := c
    simp only [Memory.risingFrom, Bool.and_eq_true, decide_eq_true_eq] at hm
    simp only [Memory.read, if_neg (show a ≠ x by omega)]
    exact ih (by omega) hm.2

theorem risingFrom_ext {lo : Nat} {m m' : List Host.Cell} (hm : Memory.risingFrom lo m = true)
    (hm' : Memory.risingFrom lo m' = true) (h : ∀ x, Memory.read m x = Memory.read m' x) : m = m' := by
  induction m generalizing lo m' with
  | nil =>
    cases m' with
    | nil => rfl
    | cons c m' => have := h c.1; simp [Memory.read] at this
  | cons c m ih =>
    cases m' with
    | nil => have := h c.1; simp [Memory.read] at this
    | cons c' m' =>
      obtain ⟨a, b⟩ := c
      obtain ⟨a', b'⟩ := c'
      simp only [Memory.risingFrom, Bool.and_eq_true, decide_eq_true_eq] at hm hm'
      have haa : a = a' := by
        have h1 := h a
        have h2 := h a'
        simp only [Memory.read, if_true] at h1 h2
        by_contra hne
        rw [if_neg (Ne.symm hne)] at h1
        rw [if_neg hne] at h2
        rcases Nat.lt_or_gt_of_ne hne with hlt | hlt
        · rw [read_of_lt (show a < a' + 1 by omega) hm'.2] at h1; cases h1
        · rw [read_of_lt (show a' < a + 1 by omega) hm.2] at h2; cases h2
      subst haa
      have hb : b = b' := by simpa [Memory.read] using h a
      subst hb
      congr 1
      refine ih hm.2 hm'.2 fun x => ?_
      by_cases hx : a = x
      · subst hx
        rw [read_of_lt (Nat.lt_succ_self a) hm.2, read_of_lt (Nat.lt_succ_self a) hm'.2]
      · have := h x
        simpa [Memory.read, hx] using this

/-- In the canonical form equal memories are equal data: what every cell reads as determines the list. -/
theorem wf_ext {m m' : List Host.Cell} (hm : Memory.wf m = true) (hm' : Memory.wf m' = true)
    (h : ∀ x, Memory.read m x = Memory.read m' x) : m = m' := by
  simp only [Memory.wf, Bool.and_eq_true] at hm hm'
  exact risingFrom_ext hm.1 hm'.1 h

/-! The primitives. -/

/-- MemRead of in-range cells gives exactly the bytes that stand there. -/
theorem readBytes_ok_iff {m : List Host.Cell} {a n : Nat} {bs : List Byte} :
    Memory.readBytes m a n = .ok bs ↔ bs.length = n ∧ ∀ i < n, Memory.read m (a + i) = bs[i]? := by
  induction n generalizing a bs with
  | zero => cases bs <;> simp [Memory.readBytes]
  | succ n ih =>
    rw [Memory.readBytes]
    cases hr : Memory.read m a with
    | none =>
      simp only [reduceCtorEq, false_iff, not_and]
      intro hlen hall
      have := hall 0 (by omega)
      rw [Nat.add_zero, hr, List.getElem?_eq_getElem (by omega)] at this
      cases this
    | some b =>
      cases hrest : Memory.readBytes m (a + 1) n with
      | error f =>
        simp only [reduceCtorEq, false_iff, not_and]
        intro hlen hall
        cases bs with
        | nil => simp at hlen
        | cons b' bs =>
          have hok : Memory.readBytes m (a + 1) n = .ok bs := by
            refine ih.2 ⟨by simpa using hlen, fun i hi => ?_⟩
            have := hall (i + 1) (by omega)
            rw [List.getElem?_cons_succ] at this
            rw [← this]; congr 1; omega
          rw [hrest] at hok; cases hok
      | ok bs' =>
        obtain ⟨hl, hall⟩ := ih.1 hrest
        simp only [Except.ok.injEq]
        constructor
        · rintro rfl
          refine ⟨by simp [hl], fun i hi => ?_⟩
          cases i with
          | zero => simpa using hr
          | succ i =>
            rw [List.getElem?_cons_succ, ← hall i (by omega)]; congr 1; omega
        · rintro ⟨hlen, h⟩
          cases bs with
          | nil => simp at hlen
          | cons b' bs =>
            have h0 := h 0 (by omega)
            rw [Nat.add_zero, hr] at h0
            simp only [List.length_cons, Nat.add_right_cancel_iff] at hlen
            congr 1
            · simpa using h0
            · refine List.ext_getElem? fun i => ?_
              by_cases hi : i < n
              · rw [← hall i hi]
                have := h (i + 1) (by omega)
                rw [List.getElem?_cons_succ] at this
                rw [← this]; congr 1; omega
              · rw [List.getElem?_eq_none (by omega), List.getElem?_eq_none (by omega)]

theorem memRead_ok_iff {m : List Host.Cell} {a n : Nat} {bs : List Byte} :
    memRead m a n = .ok bs ↔
      a + n ≤ 64 ∧ bs.length = n ∧ ∀ i < n, Memory.read m (a + i) = bs[i]? := by
  rw [memRead]
  split_ifs with h
  · simp [h, readBytes_ok_iff]
  · simp [h]

/-- MemRead gives as many bytes as it is asked for. -/
theorem memRead_length {m : List Host.Cell} {a n : Nat} {bs : List Byte} (h : memRead m a n = .ok bs) :
    bs.length = n := (memRead_ok_iff.1 h).2.1

/-- MemRead depends on nothing but the cells it names. -/
theorem memRead_congr {m m' : List Host.Cell} {a n : Nat} {bs : List Byte}
    (h : ∀ x, a ≤ x → x < a + n → Memory.read m' x = Memory.read m x) (hm : memRead m a n = .ok bs) :
    memRead m' a n = .ok bs := by
  rw [memRead_ok_iff] at *
  exact ⟨hm.1, hm.2.1, fun i hi => by rw [h (a + i) (by omega) (by omega)]; exact hm.2.2 i hi⟩

/-- MemRead answers as soon as every cell it names holds a byte. -/
theorem memRead_exists {m : List Host.Cell} {a n : Nat} (hr : a + n ≤ 64)
    (h : ∀ x, a ≤ x → x < a + n → (Memory.read m x).isSome = true) : ∃ bs, memRead m a n = .ok bs := by
  refine ⟨(List.range n).map fun i => (Memory.read m (a + i)).getD 0, memRead_ok_iff.2 ⟨hr, by simp, ?_⟩⟩
  intro i hi
  obtain ⟨b, hb⟩ := Option.isSome_iff_exists.1 (h (a + i) (by omega) (by omega))
  simp [hi, hb]

/-- A shorter MemRead from the same offset gives the first bytes of a longer one. -/
theorem memRead_take {m : List Host.Cell} {a n k : Nat} {bs : List Byte} (h : memRead m a n = .ok bs)
    (hk : k ≤ n) : memRead m a k = .ok (bs.take k) := by
  rw [memRead_ok_iff] at *
  refine ⟨by omega, by simp [h.2.1, hk], fun i hi => ?_⟩
  rw [h.2.2 i (by omega), List.getElem?_take_of_lt hi]

theorem memWrite_ok_iff {m m' : List Host.Cell} {a : Nat} {s : List Byte} :
    memWrite m a s = .ok m' ↔ a + s.length ≤ 64 ∧ m' = Memory.writeBytes m a s := by
  rw [memWrite]
  split_ifs with h <;> simp [h, eq_comm]

/-- MemWrite keeps the canonical form. -/
theorem memWrite_wf {m m' : List Host.Cell} {a : Nat} {s : List Byte} (h : memWrite m a s = .ok m')
    (hm : Memory.wf m = true) : Memory.wf m' = true := by
  obtain ⟨ha, rfl⟩ := memWrite_ok_iff.1 h
  exact wf_writeBytes ha hm

/-- MemWrite leaves every cell outside the run alone. -/
theorem memWrite_frame {m m' : List Host.Cell} {a x : Nat} {s : List Byte} (h : memWrite m a s = .ok m')
    (hx : x < a ∨ a + s.length ≤ x) : Memory.read m' x = Memory.read m x := by
  obtain ⟨-, rfl⟩ := memWrite_ok_iff.1 h
  rw [read_writeBytes, if_neg (by omega)]

/-- MemRead after MemWrite at the end of what was there: the old bytes, then the new ones. -/
theorem memRead_memWrite_append {m m' : List Host.Cell} {a : Nat} {v s : List Byte}
    (hv : memRead m 0 a = .ok v) (h : memWrite m a s = .ok m') :
    memRead m' 0 (a + s.length) = .ok (v ++ s) := by
  obtain ⟨ha, rfl⟩ := memWrite_ok_iff.1 h
  obtain ⟨-, hl, hall⟩ := memRead_ok_iff.1 hv
  refine memRead_ok_iff.2 ⟨by omega, by simp [hl], fun i hi => ?_⟩
  rw [read_writeBytes]
  by_cases hia : i < a
  · rw [if_neg (by omega), hall i hia, List.getElem?_append_left (by omega)]
  · rw [if_pos (by omega), List.getElem?_append_right (by omega)]
    congr 1; omega

/-- MemRead after MemWrite from offset 0. -/
theorem memRead_memWrite_zero {m m' : List Host.Cell} {s : List Byte} (h : memWrite m 0 s = .ok m') :
    memRead m' 0 s.length = .ok s := by
  have hv : memRead m 0 0 = .ok [] := by simp [memRead, Memory.readBytes]
  simpa using memRead_memWrite_append hv h

end Sys2Proof.Laws
end

