-- ==== Sys2Proof/Laws/BlockBuffer.lean ====
section
/-! SUPPORT. One lemma per block-buffer operation that says when it answers and with what; callers cite it and do not unfold
the operation. -/

namespace Sys2Proof.Laws

open Sys2Proof.Machine

theorem emitCompress_ok_iff {block : List Byte} {c c' : Context} :
    emitCompress block c = .ok c' ↔ block.length = 64 ∧
      c' = { c with H := compress c.H block, trace := c.trace ++ [⟨block, c.side⟩] } := by
  rw [emitCompress]
  split_ifs with h <;> simp [h, eq_comm]

theorem bbNext_ok_iff {n p : Nat} {c c' : Context} :
    bbNext n c = .ok (p, c') ↔ 1 ≤ n ∧ c.FILL + n ≤ 64 ∧ p = c.FILL ∧
      c' = { c with FILL := c.FILL + n } := by
  rw [bbNext]
  split_ifs with h
  · simp [h.1, h.2, eq_comm]
  · simp only [false_iff, not_and]
    exact fun h1 h2 => absurd ⟨h1, h2⟩ h

theorem storeBytes_ok_iff {a : Nat} {s : List Byte} {c c' : Context} :
    storeBytes a s c = .ok c' ↔ a + s.length ≤ 64 ∧
      c' = { c with BUF := Memory.writeBytes c.BUF a s } := by
  rw [storeBytes, memWrite]
  split_ifs with h <;> simp [h, eq_comm]

theorem bbZeroFill_ok_iff {limit : Nat} {c c' : Context} :
    bbZeroFill limit c = .ok c' ↔ c.FILL ≤ limit ∧ limit ≤ 64 ∧
      c' = { c with BUF := Memory.writeBytes c.BUF c.FILL (zeros (limit - c.FILL)), FILL := limit } := by
  rw [bbZeroFill]
  by_cases h : c.FILL ≤ limit
  · by_cases h' : limit ≤ 64
    · have : storeBytes c.FILL (zeros (limit - c.FILL)) c =
          .ok { c with BUF := Memory.writeBytes c.BUF c.FILL (zeros (limit - c.FILL)) } :=
        storeBytes_ok_iff.2 ⟨by simp [zeros]; omega, rfl⟩
      simp [h, h', this, eq_comm]
    · have : storeBytes c.FILL (zeros (limit - c.FILL)) c = .error .bufferRange := by
        rw [storeBytes, memWrite, if_neg (by simp [zeros]; omega)]
      simp [h, h', this]
  · simp [h]

theorem bbDrain_ok_iff {c c' : Context} :
    bbDrain c = .ok c' ↔ c.FILL = 64 ∧ ∃ block, memRead c.BUF 0 64 = .ok block ∧
      c' = { c with H := compress c.H block, FILL := 0, trace := c.trace ++ [⟨block, c.side⟩] } := by
  rw [bbDrain]
  by_cases h : c.FILL = 64
  · rw [if_pos h]
    cases hr : memRead c.BUF 0 64 with
    | error f => simp
    | ok block =>
      have he : emitCompress block c =
          .ok { c with H := compress c.H block, trace := c.trace ++ [⟨block, c.side⟩] } :=
        emitCompress_ok_iff.2 ⟨memRead_length hr, rfl⟩
      simp [h, he, eq_comm]
  · simp [h]

/-- BB.NEXT and the store: the bytes go to the end of the valid ones. -/
theorem appendBytes_ok_iff {s : List Byte} {c c' : Context} :
    appendBytes s c = .ok c' ↔ 1 ≤ s.length ∧ c.FILL + s.length ≤ 64 ∧
      c' = { c with BUF := Memory.writeBytes c.BUF c.FILL s, FILL := c.FILL + s.length } := by
  rw [appendBytes]
  by_cases h : 1 ≤ s.length ∧ c.FILL + s.length ≤ 64
  · rw [(bbNext_ok_iff (p := c.FILL)).2 ⟨h.1, h.2, rfl, rfl⟩]
    simp only [storeBytes_ok_iff]
    simp [h.1, h.2]
  · rw [bbNext, if_neg h]
    simp only [reduceCtorEq, false_iff]
    exact fun h' => h ⟨h'.1, h'.2.1⟩

/-! The blocks of a byte sequence. -/

@[simp] theorem blocksOf_zero (s : List Byte) : blocksOf 0 s = [] := rfl

@[simp] theorem blocksOf_succ (count : Nat) (s : List Byte) :
    blocksOf (count + 1) s = s.take 64 :: blocksOf count (s.drop 64) := rfl

@[simp] theorem blocksOf_length (count : Nat) (s : List Byte) : (blocksOf count s).length = count := by
  induction count generalizing s with
  | zero => rfl
  | succ count ih => simp [ih]

/-- Every piece has 64 bytes as long as the sequence lasts. -/
theorem blocksOf_block_length {count : Nat} {s b : List Byte} (hs : 64 * count ≤ s.length)
    (hb : b ∈ blocksOf count s) : b.length = 64 := by
  induction count generalizing s with
  | zero => cases hb
  | succ count ih =>
    rw [blocksOf_succ, List.mem_cons] at hb
    rcases hb with rfl | hb
    · rw [List.length_take]; rw [Nat.mul_succ] at hs; omega
    · exact ih (by rw [List.length_drop]; rw [Nat.mul_succ] at hs; omega) hb

/-- The pieces of a sequence are those of its first part and then those of the rest. -/
theorem blocksOf_add (p q : Nat) (s : List Byte) :
    blocksOf (p + q) s = blocksOf p s ++ blocksOf q (s.drop (64 * p)) := by
  induction p generalizing s with
  | zero => simp
  | succ p ih =>
    rw [show p + 1 + q = (p + q) + 1 by omega, blocksOf_succ, blocksOf_succ, ih, List.cons_append,
      List.drop_drop, show 64 + 64 * p = 64 * (p + 1) by rw [Nat.mul_succ]; omega]

/-- Bytes after the pieces do not matter. -/
theorem blocksOf_append {count : Nat} {s : List Byte} (t : List Byte) (hs : 64 * count ≤ s.length) :
    blocksOf count (s ++ t) = blocksOf count s := by
  induction count generalizing s with
  | zero => rfl
  | succ count ih =>
    rw [Nat.mul_succ] at hs
    rw [blocksOf_succ, blocksOf_succ, List.take_append_of_le_length (by omega),
      List.drop_append_of_le_length (by omega), ih (by rw [List.length_drop]; omega)]

@[simp] theorem compressAll_nil (H : Chain) : compressAll H [] = H := rfl

@[simp] theorem compressAll_cons (H : Chain) (b : List Byte) (bs : List (List Byte)) :
    compressAll H (b :: bs) = compressAll (compress H b) bs := List.foldl_cons ..

@[simp] theorem compressAll_append (H : Chain) (bs bs' : List (List Byte)) :
    compressAll H (bs ++ bs') = compressAll (compressAll H bs) bs' := by
  simp [compressAll, List.foldl_append]

/-! Step 2 and step 3 of BB.INPUT. -/

/-- The direct blocks are the first `count` pieces of the payload; the rest is returned and `BUF` is not touched. -/
theorem directBlocks_ok {count : Nat} {bytes : List Byte} (c : Context)
    (h : 64 * count ≤ bytes.length) :
    directBlocks count bytes c = .ok (bytes.drop (64 * count),
      { c with H := compressAll c.H (blocksOf count bytes),
               trace := c.trace ++ (blocksOf count bytes).map fun b => ⟨b, c.side⟩ }) := by
  induction count generalizing bytes c with
  | zero => simp [directBlocks]
  | succ count ih =>
    rw [Nat.mul_succ] at h
    rw [directBlocks, emitCompress_ok_iff.2 ⟨by rw [List.length_take]; omega, rfl⟩]
    simp only
    rw [ih _ (by rw [List.length_drop]; omega), List.drop_drop,
      show 64 + 64 * count = 64 * (count + 1) by rw [Nat.mul_succ]; omega]
    simp

/-- Whole blocks go to the compression function, the remainder to the start of `BUF`. -/
theorem inputWholeBlocks_ok (bytes : List Byte) (c : Context) :
    inputWholeBlocks bytes c = .ok
      { c with H := compressAll c.H (wholeBlocks bytes),
               BUF := Memory.writeBytes c.BUF 0 (remainder bytes),
               FILL := bytes.length % 64,
               trace := c.trace ++ (wholeBlocks bytes).map fun b => ⟨b, c.side⟩ } := by
  have hle : 64 * (bytes.length / 64) ≤ bytes.length := Nat.mul_div_le _ _
  have hrem : (bytes.drop (64 * (bytes.length / 64))).length = bytes.length % 64 := by
    rw [List.length_drop]; have := Nat.div_add_mod bytes.length 64; omega
  have hlt : bytes.length % 64 < 64 := Nat.mod_lt _ (by decide)
  rw [inputWholeBlocks, directBlocks_ok c hle]
  simp only
  rw [storeBytes_ok_iff.2 ⟨by rw [hrem]; omega, rfl⟩]
  simp [wholeBlocks, remainder, hrem]

end Sys2Proof.Laws
end

