-- ==== Sys2Proof/Laws/PerInstr.lean ====
section
/-! SUPPORT. Facts about a command as syntax, one lemma per constructor. Family `EncodedFields`: the encoder puts `OP` and
`LEN64` where the decoder reads them. -/

namespace Sys2Proof.Laws

theorem opField_append (op : Byte) (n : BitVec 64) : opField (op ++ n) = op := by
  show (op ++ n : BitVec (8 + 64)).extractLsb' 64 8 = op
  ext i hi
  rw [BitVec.getElem_extractLsb', BitVec.getLsbD_append]
  simp [hi]

theorem len64Field_append (op : Byte) (n : BitVec 64) : len64Field (op ++ n) = n := by
  show (op ++ n : BitVec (8 + 64)).extractLsb' 0 64 = n
  ext i hi
  rw [BitVec.getElem_extractLsb', BitVec.getLsbD_append]
  simp [hi]

/-- Bits 71:64 of the encoded word are the opcode, bits 63:0 the operand (30_encoding.md R42). -/
def EncodedFields.Statement (i : Instr) : Prop :=
  opField (encode i) = i.opcode ∧ len64Field (encode i) = i.len64

theorem EncodedFields.reset : EncodedFields.Statement .reset := ⟨opField_append _ _, len64Field_append _ _⟩

theorem EncodedFields.write (n : Nat) : EncodedFields.Statement (.write n) :=
  ⟨opField_append _ _, len64Field_append _ _⟩

theorem EncodedFields.digest : EncodedFields.Statement .digest := ⟨opField_append _ _, len64Field_append _ _⟩

end Sys2Proof.Laws
end

