-- ==== Sys2Proof/Laws/State.lean ====
section
/-! SUPPORT. What each shared update of the state does to each field, once, so that no later proof unfolds a record
update. -/

namespace Sys2Proof.Laws

open Sys2Proof.Machine

@[simp] theorem respond_H (r : Response) (s : State) : (respond r s).H = s.H := rfl
@[simp] theorem respond_BUF (r : Response) (s : State) : (respond r s).BUF = s.BUF := rfl
@[simp] theorem respond_FILL (r : Response) (s : State) : (respond r s).FILL = s.FILL := rfl
@[simp] theorem respond_LEN (r : Response) (s : State) : (respond r s).LEN = s.LEN := rfl
@[simp] theorem respond_ERR (r : Response) (s : State) : (respond r s).ERR = s.ERR := rfl
@[simp] theorem respond_busy (r : Response) (s : State) : (respond r s).busy = none := rfl
@[simp] theorem respond_respValid (r : Response) (s : State) : (respond r s).respValid = true := rfl
@[simp] theorem respond_resp (r : Response) (s : State) : (respond r s).resp = responseCode r := rfl
@[simp] theorem respond_dout (r : Response) (s : State) : (respond r s).dout = Config.freeDout s.free := rfl
@[simp] theorem respond_host (r : Response) (s : State) : (respond r s).host = s.host := rfl
@[simp] theorem respond_din (r : Response) (s : State) : (respond r s).din = s.din := rfl
@[simp] theorem respond_trace (r : Response) (s : State) : (respond r s).trace = s.trace := rfl
@[simp] theorem respond_free (r : Response) (s : State) : (respond r s).free = s.free + 1 := rfl

@[simp] theorem respondDigest_H (d : BitVec 160) (s : State) : (respondDigest d s).H = s.H := rfl
@[simp] theorem respondDigest_BUF (d : BitVec 160) (s : State) : (respondDigest d s).BUF = s.BUF := rfl
@[simp] theorem respondDigest_FILL (d : BitVec 160) (s : State) : (respondDigest d s).FILL = s.FILL := rfl
@[simp] theorem respondDigest_LEN (d : BitVec 160) (s : State) : (respondDigest d s).LEN = s.LEN := rfl
@[simp] theorem respondDigest_ERR (d : BitVec 160) (s : State) : (respondDigest d s).ERR = s.ERR := rfl
@[simp] theorem respondDigest_busy (d : BitVec 160) (s : State) : (respondDigest d s).busy = none := rfl
@[simp] theorem respondDigest_respValid (d : BitVec 160) (s : State) : (respondDigest d s).respValid = true := rfl
@[simp] theorem respondDigest_resp (d : BitVec 160) (s : State) : (respondDigest d s).resp = responseCode .ok := rfl
@[simp] theorem respondDigest_dout (d : BitVec 160) (s : State) : (respondDigest d s).dout = d := rfl
@[simp] theorem respondDigest_host (d : BitVec 160) (s : State) : (respondDigest d s).host = s.host := rfl
@[simp] theorem respondDigest_din (d : BitVec 160) (s : State) : (respondDigest d s).din = s.din := rfl
@[simp] theorem respondDigest_trace (d : BitVec 160) (s : State) : (respondDigest d s).trace = s.trace := rfl
@[simp] theorem respondDigest_free (d : BitVec 160) (s : State) : (respondDigest d s).free = s.free := rfl

@[simp] theorem withoutResponse_H (s : State) : (withoutResponse s).H = s.H := rfl
@[simp] theorem withoutResponse_BUF (s : State) : (withoutResponse s).BUF = s.BUF := rfl
@[simp] theorem withoutResponse_FILL (s : State) : (withoutResponse s).FILL = s.FILL := rfl
@[simp] theorem withoutResponse_LEN (s : State) : (withoutResponse s).LEN = s.LEN := rfl
@[simp] theorem withoutResponse_ERR (s : State) : (withoutResponse s).ERR = s.ERR := rfl
@[simp] theorem withoutResponse_busy (s : State) : (withoutResponse s).busy = s.busy := rfl
@[simp] theorem withoutResponse_respValid (s : State) : (withoutResponse s).respValid = false := rfl
@[simp] theorem withoutResponse_resp (s : State) : (withoutResponse s).resp = Config.freeResp s.free := rfl
@[simp] theorem withoutResponse_dout (s : State) : (withoutResponse s).dout = Config.freeDout s.free := rfl
@[simp] theorem withoutResponse_host (s : State) : (withoutResponse s).host = s.host := rfl
@[simp] theorem withoutResponse_din (s : State) : (withoutResponse s).din = s.din := rfl
@[simp] theorem withoutResponse_trace (s : State) : (withoutResponse s).trace = s.trace := rfl
@[simp] theorem withoutResponse_free (s : State) : (withoutResponse s).free = s.free + 1 := rfl

@[simp] theorem raiseException_H (x : Exception) (s : State) : (raiseException x s).H = s.H := rfl
@[simp] theorem raiseException_BUF (x : Exception) (s : State) : (raiseException x s).BUF = s.BUF := rfl
@[simp] theorem raiseException_FILL (x : Exception) (s : State) : (raiseException x s).FILL = s.FILL := rfl
@[simp] theorem raiseException_LEN (x : Exception) (s : State) : (raiseException x s).LEN = s.LEN := rfl
@[simp] theorem raiseException_ERR (x : Exception) (s : State) : (raiseException x s).ERR = exceptionErr x s.ERR := rfl
@[simp] theorem raiseException_busy (x : Exception) (s : State) : (raiseException x s).busy = none := rfl
@[simp] theorem raiseException_respValid (x : Exception) (s : State) : (raiseException x s).respValid = true := rfl
@[simp] theorem raiseException_resp (x : Exception) (s : State) : (raiseException x s).resp = responseCode (exceptionResponse x) := rfl
@[simp] theorem raiseException_dout (x : Exception) (s : State) : (raiseException x s).dout = Config.freeDout s.free := rfl
@[simp] theorem raiseException_host (x : Exception) (s : State) : (raiseException x s).host = s.host := rfl
@[simp] theorem raiseException_din (x : Exception) (s : State) : (raiseException x s).din = s.din := rfl
@[simp] theorem raiseException_trace (x : Exception) (s : State) : (raiseException x s).trace = s.trace := rfl
@[simp] theorem raiseException_free (x : Exception) (s : State) : (raiseException x s).free = s.free + 1 := rfl

@[simp] theorem commitLive_H (c : Context) (s : State) : (commitLive c s).H = c.H := rfl
@[simp] theorem commitLive_BUF (c : Context) (s : State) : (commitLive c s).BUF = c.BUF := rfl
@[simp] theorem commitLive_FILL (c : Context) (s : State) : (commitLive c s).FILL = BitVec.ofNat 7 c.FILL := rfl
@[simp] theorem commitLive_LEN (c : Context) (s : State) : (commitLive c s).LEN = s.LEN := rfl
@[simp] theorem commitLive_ERR (c : Context) (s : State) : (commitLive c s).ERR = s.ERR := rfl
@[simp] theorem commitLive_busy (c : Context) (s : State) : (commitLive c s).busy = s.busy := rfl
@[simp] theorem commitLive_respValid (c : Context) (s : State) : (commitLive c s).respValid = s.respValid := rfl
@[simp] theorem commitLive_resp (c : Context) (s : State) : (commitLive c s).resp = s.resp := rfl
@[simp] theorem commitLive_dout (c : Context) (s : State) : (commitLive c s).dout = s.dout := rfl
@[simp] theorem commitLive_host (c : Context) (s : State) : (commitLive c s).host = s.host := rfl
@[simp] theorem commitLive_din (c : Context) (s : State) : (commitLive c s).din = s.din := rfl
@[simp] theorem commitLive_trace (c : Context) (s : State) : (commitLive c s).trace = c.trace := rfl
@[simp] theorem commitLive_free (c : Context) (s : State) : (commitLive c s).free = s.free := rfl

@[simp] theorem initialise_H (s : State) : (initialise s).H = IV := rfl
@[simp] theorem initialise_BUF (s : State) : (initialise s).BUF = s.BUF := rfl
@[simp] theorem initialise_FILL (s : State) : (initialise s).FILL = 0 := rfl
@[simp] theorem initialise_LEN (s : State) : (initialise s).LEN = 0 := rfl
@[simp] theorem initialise_ERR (s : State) : (initialise s).ERR = false := rfl
@[simp] theorem initialise_busy (s : State) : (initialise s).busy = s.busy := rfl
@[simp] theorem initialise_respValid (s : State) : (initialise s).respValid = s.respValid := rfl
@[simp] theorem initialise_resp (s : State) : (initialise s).resp = s.resp := rfl
@[simp] theorem initialise_dout (s : State) : (initialise s).dout = s.dout := rfl
@[simp] theorem initialise_host (s : State) : (initialise s).host = s.host := rfl
@[simp] theorem initialise_din (s : State) : (initialise s).din = s.din := rfl
@[simp] theorem initialise_trace (s : State) : (initialise s).trace = s.trace := rfl
@[simp] theorem initialise_free (s : State) : (initialise s).free = s.free := rfl

@[simp] theorem newEvent_H (s : State) : (newEvent s).H = IV := rfl
@[simp] theorem newEvent_BUF (s : State) : (newEvent s).BUF = s.BUF := rfl
@[simp] theorem newEvent_FILL (s : State) : (newEvent s).FILL = 0 := rfl
@[simp] theorem newEvent_LEN (s : State) : (newEvent s).LEN = 0 := rfl
@[simp] theorem newEvent_ERR (s : State) : (newEvent s).ERR = false := rfl
@[simp] theorem newEvent_busy (s : State) : (newEvent s).busy = none := rfl
@[simp] theorem newEvent_respValid (s : State) : (newEvent s).respValid = false := rfl
@[simp] theorem newEvent_resp (s : State) : (newEvent s).resp = Config.freeResp s.free := rfl
@[simp] theorem newEvent_dout (s : State) : (newEvent s).dout = Config.freeDout s.free := rfl
@[simp] theorem newEvent_host (s : State) : (newEvent s).host = s.host := rfl
@[simp] theorem newEvent_din (s : State) : (newEvent s).din = s.din := rfl
@[simp] theorem newEvent_trace (s : State) : (newEvent s).trace = s.trace := rfl
@[simp] theorem newEvent_free (s : State) : (newEvent s).free = s.free + 1 := rfl

@[simp] theorem acceptCommand_H (rest : List HostEvent) (s : State) : (acceptCommand rest s).H = s.H := rfl
@[simp] theorem acceptCommand_BUF (rest : List HostEvent) (s : State) : (acceptCommand rest s).BUF = s.BUF := rfl
@[simp] theorem acceptCommand_FILL (rest : List HostEvent) (s : State) : (acceptCommand rest s).FILL = s.FILL := rfl
@[simp] theorem acceptCommand_LEN (rest : List HostEvent) (s : State) : (acceptCommand rest s).LEN = s.LEN := rfl
@[simp] theorem acceptCommand_ERR (rest : List HostEvent) (s : State) : (acceptCommand rest s).ERR = s.ERR := rfl
@[simp] theorem acceptCommand_busy (rest : List HostEvent) (s : State) : (acceptCommand rest s).busy = s.busy := rfl
@[simp] theorem acceptCommand_respValid (rest : List HostEvent) (s : State) : (acceptCommand rest s).respValid = false := rfl
@[simp] theorem acceptCommand_resp (rest : List HostEvent) (s : State) : (acceptCommand rest s).resp = Config.freeResp s.free := rfl
@[simp] theorem acceptCommand_dout (rest : List HostEvent) (s : State) : (acceptCommand rest s).dout = Config.freeDout s.free := rfl
@[simp] theorem acceptCommand_host (rest : List HostEvent) (s : State) : (acceptCommand rest s).host = rest := rfl
@[simp] theorem acceptCommand_din (rest : List HostEvent) (s : State) : (acceptCommand rest s).din = s.din := rfl
@[simp] theorem acceptCommand_trace (rest : List HostEvent) (s : State) : (acceptCommand rest s).trace = s.trace := rfl
@[simp] theorem acceptCommand_free (rest : List HostEvent) (s : State) : (acceptCommand rest s).free = s.free + 1 := rfl

@[simp] theorem cutCommand_H (w : CommandWord) (k : Nat) (rest : List HostEvent) (s : State) : (cutCommand w k rest s).H = IV := rfl
@[simp] theorem cutCommand_BUF (w : CommandWord) (k : Nat) (rest : List HostEvent) (s : State) : (cutCommand w k rest s).BUF = s.BUF := rfl
@[simp] theorem cutCommand_FILL (w : CommandWord) (k : Nat) (rest : List HostEvent) (s : State) : (cutCommand w k rest s).FILL = 0 := rfl
@[simp] theorem cutCommand_LEN (w : CommandWord) (k : Nat) (rest : List HostEvent) (s : State) : (cutCommand w k rest s).LEN = 0 := rfl
@[simp] theorem cutCommand_ERR (w : CommandWord) (k : Nat) (rest : List HostEvent) (s : State) : (cutCommand w k rest s).ERR = false := rfl
@[simp] theorem cutCommand_busy (w : CommandWord) (k : Nat) (rest : List HostEvent) (s : State) : (cutCommand w k rest s).busy = none := rfl
@[simp] theorem cutCommand_respValid (w : CommandWord) (k : Nat) (rest : List HostEvent) (s : State) : (cutCommand w k rest s).respValid = false := rfl
@[simp] theorem cutCommand_resp (w : CommandWord) (k : Nat) (rest : List HostEvent) (s : State) : (cutCommand w k rest s).resp = Config.freeResp s.free := rfl
@[simp] theorem cutCommand_dout (w : CommandWord) (k : Nat) (rest : List HostEvent) (s : State) : (cutCommand w k rest s).dout = Config.freeDout s.free := rfl
@[simp] theorem cutCommand_host (w : CommandWord) (k : Nat) (rest : List HostEvent) (s : State) : (cutCommand w k rest s).host = rest := rfl
@[simp] theorem cutCommand_din (w : CommandWord) (k : Nat) (rest : List HostEvent) (s : State) : (cutCommand w k rest s).din = s.din.drop (min k (payloadOwed w s)) := rfl
@[simp] theorem cutCommand_trace (w : CommandWord) (k : Nat) (rest : List HostEvent) (s : State) : (cutCommand w k rest s).trace = s.trace := rfl
@[simp] theorem cutCommand_free (w : CommandWord) (k : Nat) (rest : List HostEvent) (s : State) : (cutCommand w k rest s).free = s.free + 1 := rfl

@[simp] theorem liveContext_H (s : State) : (liveContext s).H = s.H := rfl
@[simp] theorem liveContext_BUF (s : State) : (liveContext s).BUF = s.BUF := rfl
@[simp] theorem liveContext_FILL (s : State) : (liveContext s).FILL = s.FILL.toNat := rfl
@[simp] theorem liveContext_side (s : State) : (liveContext s).side = .live := rfl
@[simp] theorem liveContext_trace (s : State) : (liveContext s).trace = s.trace := rfl

@[simp] theorem snapshotContext_H (s : State) : (snapshotContext s).H = s.H := rfl
@[simp] theorem snapshotContext_BUF (s : State) : (snapshotContext s).BUF = s.BUF := rfl
@[simp] theorem snapshotContext_FILL (s : State) : (snapshotContext s).FILL = s.FILL.toNat := rfl
@[simp] theorem snapshotContext_side (s : State) : (snapshotContext s).side = .snapshot := rfl
@[simp] theorem snapshotContext_trace (s : State) : (snapshotContext s).trace = s.trace := rfl

end Sys2Proof.Laws
end

