-- ==== Sys2Proof/Laws/Step.lean ====
section
/-! SUPPORT. Once and for all what a command and a step can do: the inversion lemmas of the meanings and of `step`. -/

namespace Sys2Proof.Laws

open Sys2Proof.Machine

/-- RESET answers in every state. -/
@[simp] theorem execReset_eq (s : State) : execReset s = .next (respond .ok (initialise s)) := rfl

/-- What a WRITE with its whole payload can answer. -/
theorem completeWrite_next {n : Nat} {bytes : List Byte} {s t : State} (h : completeWrite n bytes s = .next t) :
    ∃ c, bbInput bytes (liveContext s) = .ok c ∧
      t = respond .ok (commitLive c { s with LEN := advanceCounter s.LEN n }) := by
  rw [completeWrite] at h
  cases hc : bbInput bytes (liveContext s) with
  | ok c => rw [hc] at h; exact ⟨c, rfl, by simpa using h.symm⟩
  | error f => rw [hc] at h; cases h

/-- What an accepted WRITE can do with the bytes on `din`: complete, or wait for more. -/
theorem receivePayload_next {p : Pending} {s t : State} (h : receivePayload p s = .next t) :
    ((takePayload p s).taken.length = p.n ∧
      completeWrite p.n (takePayload p s).taken { s with din := leavePayload p s } = .next t) ∨
    ((takePayload p s).taken.length ≠ p.n ∧
      t = withoutResponse { s with busy := some (takePayload p s), din := leavePayload p s }) := by
  rw [receivePayload] at h
  split_ifs at h with hl
  · exact .inl ⟨hl, h⟩
  · exact .inr ⟨hl, by simpa using h.symm⟩

/-- What WRITE can answer: FAILED, OVERFLOW, or the payload is received. -/
theorem execWrite_next {n : Nat} {s t : State} (h : execWrite n s = .next t) :
    (s.ERR = true ∧ t = raiseException .failed s) ∨
    (s.ERR = false ∧ counterOverflows s.LEN n = true ∧ t = raiseException .overflowError s) ∨
    (s.ERR = false ∧ counterOverflows s.LEN n = false ∧ receivePayload ⟨n, []⟩ s = .next t) := by
  rw [execWrite] at h
  split_ifs at h with he ho
  · exact .inl ⟨he, by simpa using h.symm⟩
  · exact .inr (.inl ⟨by simpa using he, ho, by simpa using h.symm⟩)
  · exact .inr (.inr ⟨by simpa using he, by simpa using ho, h⟩)

/-- What DIGEST can answer: FAILED, or the digest of its snapshot. -/
theorem execDigest_next {s t : State} (h : execDigest s = .next t) :
    (s.ERR = true ∧ t = raiseException .failed s) ∨
    (s.ERR = false ∧ ∃ c, padAndFinish s.LEN (snapshotContext s) = .ok c ∧
      t = respondDigest (digestPort (serialize c.H)) { s with trace := c.trace }) := by
  rw [execDigest] at h
  split_ifs at h with he
  · exact .inl ⟨he, by simpa using h.symm⟩
  · refine .inr ⟨by simpa using he, ?_⟩
    cases hc : padAndFinish s.LEN (snapshotContext s) with
    | ok c => rw [hc] at h; exact ⟨c, rfl, by simpa using h.symm⟩
    | error f => rw [hc] at h; cases h

/-- What a step can answer, by what the host presents and whether a WRITE waits. -/
theorem step_next {s t : State} (h : step s = .next t) :
    (∃ rest, s.host = .rst :: rest ∧ t = newEvent { s with host := rest }) ∨
    (∃ p, s.busy = some p ∧ (∀ rest, s.host ≠ .rst :: rest) ∧ receivePayload p s = .next t) ∨
    (s.busy = none ∧ s.host = [] ∧ t = s) ∨
    (∃ w k rest, s.busy = none ∧ s.host = .cmdCut w k :: rest ∧ t = cutCommand w k rest s) ∨
    (∃ w rest i, s.busy = none ∧ s.host = .cmd w :: rest ∧ decodeWord w = .ok i ∧
      exec i (acceptCommand rest s) = .next t) ∨
    (∃ w rest e, s.busy = none ∧ s.host = .cmd w :: rest ∧ decodeWord w = .error e ∧
      t = raiseException .illegalCommand (acceptCommand rest s)) := by
  rw [step] at h
  split at h
  · rename_i rest hb hh
    exact .inl ⟨rest, hh, by simpa using h.symm⟩
  · rename_i p hb hn
    exact .inr (.inl ⟨p, hb, fun rest hr => hn rest hr, h⟩)
  · rename_i hb hh
    exact .inr (.inr (.inl ⟨hb, hh, by simpa using h.symm⟩))
  · rename_i rest hb hh
    exact .inl ⟨rest, hh, by simpa using h.symm⟩
  · rename_i w k rest hb hh
    exact .inr (.inr (.inr (.inl ⟨w, k, rest, hb, hh, by simpa using h.symm⟩)))
  · rename_i w rest hb hh
    rw [executeWord] at h
    cases hd : decodeWord w with
    | ok i => rw [hd] at h; exact .inr (.inr (.inr (.inr (.inl ⟨w, rest, i, hb, hh, hd, h⟩))))
    | error e =>
      rw [hd] at h
      exact .inr (.inr (.inr (.inr (.inr ⟨w, rest, e, hb, hh, hd, by simpa using h.symm⟩))))

end Sys2Proof.Laws
end

