-- ==== Sys2Proof/Tests/Slice0.lean ====
section
/-! SUPPORT. The model's own tests: expected values are those of spec/95_test_vectors.md, and the words are written out from
30_encoding.md. The second half shows, for every statement that has hypotheses, states and operands that meet them. -/

set_option Elab.async false

namespace Sys2Proof.Tests

open Sys2Proof Sys2Proof.Machine

/-- The engine with `valid` in its buffer, a counter of `len` bits and an error flag, nothing presented. -/
def engine (H : Chain) (valid : List Byte) (len : Nat) (err : Bool) : State :=
  { State.reset with
    H := H, BUF := Memory.writeBytes [] 0 valid, FILL := BitVec.ofNat 7 valid.length, LEN := BitVec.ofNat 64 len,
    ERR := err }

/-- A state with payload bytes standing on `din`. -/
def offered (bytes : List Byte) (s : State) : State := { s with din := bytes }

/-- A state with host events presented. -/
def presented (events : List HostEvent) (s : State) : State := { s with host := events }

/-- `n` bytes of 0x78, the text "x...x" of the vectors. -/
def xs (n : Nat) : List Byte := List.replicate n 0x78

/-- Whether an outcome is a next state with a property. -/
def nextHas (o : Host.Outcome State Fault Refusal) (good : State → Bool) : Bool :=
  match o with
  | .next t => good t
  | .fault _ => false
  | .refused _ => false

/-! ## Well-formed commands -/

theorem test_wf_write_top : (Instr.write (2 ^ 64 - 1)).wf = true := by decide
theorem test_wf_refuses_write_too_long : (Instr.write (2 ^ 64)).wf = false := by decide

/-! ## Encodings, written out from R45 to R48 -/

theorem test_decode_reset : decodeWord 0x010000000000000000 = .ok .reset := by rfl
theorem test_decode_write_three : decodeWord 0x020000000000000003 = .ok (.write 3) := by rfl
theorem test_decode_write_top : decodeWord 0x02FFFFFFFFFFFFFFFF = .ok (.write (2 ^ 64 - 1)) := by rfl
theorem test_decode_digest : decodeWord 0x030000000000000000 = .ok .digest := by rfl
theorem test_decode_zero_word : decodeWord 0x000000000000000000 = .error (.reservedOpcode 0x00) := by rfl
theorem test_decode_opcode_four : decodeWord 0x040000000000000000 = .error (.reservedOpcode 0x04) := by rfl
theorem test_decode_all_ones : decodeWord 0xFFFFFFFFFFFFFFFFFF = .error (.reservedOpcode 0xFF) := by rfl
theorem test_decode_reset_with_operand : decodeWord 0x010000000000000001 = .error (.operandNotZero 0x01) := by rfl
theorem test_decode_digest_with_operand : decodeWord 0x038000000000000000 = .error (.operandNotZero 0x03) := by rfl
/-- E11's nine bytes, and a byte that follows. -/
theorem test_decode_nine_bytes :
    decodeBytes [0x02, 0x1F, 0xFF, 0xFF, 0xFF, 0xFF, 0xFF, 0xFF, 0xFE, 0x61] = .ok (.write (2 ^ 61 - 2), [0x61]) := by
  rfl
theorem test_decode_eight_bytes : decodeBytes [0x01, 0, 0, 0, 0, 0, 0, 0] = .error (.truncated 8) := by rfl
theorem test_encode_reset : encode .reset = 0x010000000000000000 := by decide
theorem test_encode_write : encode (.write 0x46) = 0x020000000000000046 := by decide
theorem test_encode_digest_bytes : encodeBytes .digest = [3, 0, 0, 0, 0, 0, 0, 0, 0] := by decide
theorem test_table_word_digest : decodeTableWord 72 0x030000000000000000 = some .digest := by decide

/-! ## Arithmetic and round functions, 95_test_vectors.md 3.1 and 3.2 -/

theorem test_add32_carry_dropped : add32 0xEFCDAB89 0x5738D5E1 = 0x4706816A := by decide
theorem test_add32_wraps : add32 0x80000000 0x80000000 = 0 := by decide
theorem test_rotl32_five : rotl32 0x67452301 5 = 0xE8A4602C := by decide
theorem test_rotl32_thirty : rotl32 0xEFCDAB89 30 = 0x7BF36AE2 := by decide
theorem test_F0_row : F0 0xFFFFFFFF 0x12345678 0x9ABCDEF0 = 0x12345678 := by decide
theorem test_F1_round20 : F1 0xDC64901D 0x20AA99CA 0xD3A49608 = 0x2F6A9FDF := by decide
theorem test_F2_round40 : F2 0x4C986405 0xF718E5CF 0x03D447F6 = 0x479865C7 := by decide
theorem test_F3_round60 : F3 0x09D785FD 0x3498BFD4 0xF211824F = 0xCF5EB866 := by decide

/-! ## The compression function, 95_test_vectors.md 3.3 to 3.5 -/

/-- The one block of the padded message "abc". -/
def blockAbc : List Byte := [0x61, 0x62, 0x63, 0x80] ++ zeros 59 ++ [0x18]

theorem test_round_zero :
    round (parse blockAbc) 0 (initWork IV) = ⟨0x0116FC33, 0x67452301, 0x7BF36AE2, 0x98BADCFE, 0x10325476⟩ := by
  decide +kernel
theorem test_round_change_at_60 :
    roundWith 60 0x7BA06619 ⟨0x3F52DE5A, 0x09D785FD, 0x3498BFD4, 0xF211824F, 0xD79915AB⟩ =
      roundWith 61 0x7BA06619 ⟨0x3F52DE5A, 0x09D785FD, 0x3498BFD4, 0xF211824F, 0xD79915AB⟩ := by decide +kernel
theorem test_schedule_last_word : wordAt (schedule blockAbc) 79 = 0x822E0879 := by decide +kernel
theorem test_compress_abc :
    compress IV blockAbc = ⟨0xA9993E36, 0x4706816A, 0xBA3E2571, 0x7850C26C, 0x9CD0D89D⟩ := by
  unfold compress; decide +kernel
/-- Vector K5: the bytes 00 to 3F, so every byte lane is told apart. -/
theorem test_compress_counting_bytes :
    compress IV ((List.range 64).map (BitVec.ofNat 8)) =
      ⟨0xB9AC757B, 0xBC297925, 0x2E227274, 0x06872F94, 0xCBEA56A1⟩ := by
  unfold compress; decide +kernel

/-! ## Serializer and byte order, 95_test_vectors.md 4 -/

theorem test_serialize :
    serialize ⟨0x00000001, 0x00000000, 0x80000000, 0x01020304, 0xFFFFFFFE⟩ =
      [0, 0, 0, 1, 0, 0, 0, 0, 0x80, 0, 0, 0, 1, 2, 3, 4, 0xFF, 0xFF, 0xFF, 0xFE] := by decide
theorem test_digest_port :
    digestPort (serialize ⟨0xDA39A3EE, 0x5E6B4B0D, 0x3255BFEF, 0x95601890, 0xAFD80709⟩) =
      0xDA39A3EE5E6B4B0D3255BFEF95601890AFD80709 := by decide
theorem test_be64_bytes : be64Bytes 0xFFFFFFFFFFFFFFF8 = [0xFF, 0xFF, 0xFF, 0xFF, 0xFF, 0xFF, 0xFF, 0xF8] := by decide
theorem test_hex_digest : hexDigest [0x0a, 0x0b, 0xff, 0x00] = "0a0bff00".toList := by decide

/-! ## Commands, 95_test_vectors.md 2, 5, 6 -/

/-- E4: RESET of a used engine. -/
theorem test_reset :
    nextHas (exec .reset (engine IV [0x61, 0x62, 0x63] 24 true)) (fun t =>
      decide (t.H = IV ∧ t.FILL = 0 ∧ t.LEN = 0 ∧ t.ERR = false ∧ t.resp = 0)) = true := by decide
/-- P1, command 2: a WRITE of "abc". -/
theorem test_write_abc :
    nextHas (exec (.write 3) (offered [0x61, 0x62, 0x63] State.reset)) (fun t =>
      decide (t.H = IV ∧ t.FILL = 3 ∧ t.LEN = 24 ∧ t.BUF = [(0, 0x61), (1, 0x62), (2, 0x63)] ∧ t.resp = 0)) = true := by
  decide +kernel
/-- B7: 65 bytes from `FILL` = 63: one block through the buffer, one direct. -/
theorem test_write_across_two_blocks :
    nextHas (exec (.write 65) (offered (xs 65) (engine IV (xs 63) 504 false))) (fun t =>
      decide (t.FILL = 0 ∧ t.LEN = 1024 ∧ t.trace = [⟨xs 64, .live⟩, ⟨xs 64, .live⟩])) = true := by decide +kernel
/-- E7: the overflow at the top of the counter. -/
theorem test_write_overflow :
    nextHas (exec (.write 1) (offered [0x61] (engine IV (xs 63) (2 ^ 64 - 8) false))) (fun t =>
      decide (t.ERR = true ∧ t.resp = 1 ∧ t.LEN = 0xFFFFFFFFFFFFFFF8 ∧ t.din = [0x61])) = true := by decide +kernel
/-- E15: in the failed state a WRITE that would overflow is FAILED, not OVERFLOW. -/
theorem test_write_failed_first :
    nextHas (exec (.write (2 ^ 61)) (engine IV [] 0 true)) (fun t => decide (t.ERR = true ∧ t.resp = 3)) = true := by
  decide +kernel
/-- P1, command 3: the digest of "abc". -/
theorem test_digest_abc :
    nextHas (exec .digest (engine IV [0x61, 0x62, 0x63] 24 false)) (fun t =>
      decide (t.dout = 0xA9993E364706816ABA3E25717850C26C9CD0D89D ∧ t.FILL = 3)) = true := by
  unfold exec execDigest padAndFinish bbPad bbDrain emitCompress compress; decide +kernel
/-- PD4: 57 bytes, so the padding spills into a second block. -/
theorem test_digest_two_blocks :
    nextHas (exec .digest (engine IV (xs 57) 456 false)) (fun t =>
      decide (t.dout = 0x025ECBD5D70F8FB3C5457CD96BAB13FDA305DC59 ∧ t.trace.length = 2)) = true := by
  unfold exec execDigest padAndFinish bbPad bbDrain emitCompress compress; decide +kernel
/-- P4 as a listing: the rejected WRITEs #2 and #4 send no payload, so the WRITE "abc" finds its own. -/
theorem test_listing_sends_no_rejected_payload :
    (presentLines [.writeText "ab", .writeLen (2 ^ 61), .digest, .writeText "c", .reset, .digest, .writeText "abc", .digest]
      State.reset).din = [0x61, 0x62, 0x61, 0x62, 0x63] := by decide +kernel
/-- E19, P5: RESET with an operand resets nothing. -/
theorem test_step_illegal_word :
    nextHas (step (presented [.cmd 0x010000000000000005] (engine IV [0x61, 0x62, 0x63] 24 false))) (fun t =>
      decide (t.resp = 2 ∧ t.FILL = 3 ∧ t.LEN = 24 ∧ t.host = [])) = true := by decide +kernel
/-- R50: the table's RESET word, fetched first after reset, is answered OK. -/
theorem test_first_fetched_word :
    nextHas (step (State.reset.withFetchWord 72 0x010000000000000000)) (fun t =>
      decide (t.respValid = true ∧ t.resp = 0 ∧ t.host = [])) = true := by decide +kernel
/-- R120, R123: a WRITE that waits is abandoned by `rst` without a response. -/
theorem test_rst_frees_waiting_write :
    nextHas (step (presented [.rst] { engine IV [0x61] 8 false with busy := some ⟨5, [0x62]⟩ })) (fun t =>
      decide (t.FILL = 0 ∧ t.LEN = 0 ∧ t.busy = none ∧ t.respValid = false)) = true := by decide +kernel

/-! ## Witnesses: the hypotheses of the statements can be met -/

/-- Three bytes absorbed, and three more offered. -/
def midway : State := offered [0x31, 0x32, 0x33] (engine IV [0x31, 0x32, 0x33] 24 false)

/-- A WRITE of two bytes waits with one byte taken. -/
def waiting : State := { midway with busy := some ⟨2, [0x34]⟩, din := [] }

/-- An engine fresh after RESET, with a stale byte in its buffer. -/
def staleFresh : State := { engine IV [] 0 false with BUF := [(5, 0x11)] }

theorem holds_midway : HoldsBytes midway [0x31, 0x32, 0x33] := ⟨by decide, by rfl⟩

theorem holds_top (s : State) (h : s = engine IV (xs 63) (2 ^ 64 - 8) false) : HoldsBytes s (xs 63) := by
  subst h; exact ⟨by decide, by rfl⟩

theorem inv_midway : Inv midway where
  bufWf := by decide
  fillAtRest := by decide
  cellsWritten := by decide
  lenBytes := by decide
  fillOfLen := by decide
  pendingOk := by intro p hp; cases hp
  traceBlocks := by intro e he; cases he

theorem inv_waiting : Inv waiting where
  bufWf := by decide
  fillAtRest := by decide
  cellsWritten := by decide
  lenBytes := by decide
  fillOfLen := by decide
  pendingOk := by intro p hp; cases hp; exact ⟨by decide, rfl, by decide⟩
  traceBlocks := by intro e he; cases he

theorem inv_staleFresh : Inv staleFresh where
  bufWf := by decide
  fillAtRest := by decide
  cellsWritten := by decide
  lenBytes := by decide
  fillOfLen := by decide
  pendingOk := by intro p hp; cases hp
  traceBlocks := by intro e he; cases he

theorem absorbed_midway : Absorbed [0x31, 0x32, 0x33] midway := ⟨by rfl, by decide, by rfl, by decide⟩

theorem absorbed_waiting : Absorbed [0x31, 0x32, 0x33] waiting := ⟨by rfl, by decide, by rfl, by decide⟩

theorem absorbed_staleFresh : Absorbed [] staleFresh := ⟨by rfl, by decide, by rfl, by decide⟩

theorem witness_EncodeInvertsDecode : ∃ c i, decodeWord c = .ok i := ⟨0x02FFFFFFFFFFFFFFFF, .write (2 ^ 64 - 1), by rfl⟩

theorem witness_DecodeInvertsEncode : (Instr.write (2 ^ 64 - 1)).wf = true ∧ (Instr.write 0).wf = true := by decide

theorem witness_NineBytesDecodeToTheirCommand : Instr.digest.wf = true := by decide

theorem witness_IllegalWordsAreThoseListed :
    IllegalWord 0x000000000000000007 ∧ IllegalWord 0x040000000000000000 ∧ IllegalWord 0x010000000000000001 ∧
      IllegalWord 0x038000000000000000 ∧ ¬ IllegalWord 0x030000000000000000 := by
  unfold IllegalWord; decide

theorem witness_StepRunsDecodedCommand :
    (presented [.cmd 0x020000000000000003, .rst] midway).busy = none ∧
      (presented [.cmd 0x020000000000000003, .rst] midway).host = .cmd 0x020000000000000003 :: [.rst] ∧
      decodeWord 0x020000000000000003 = .ok (.write 3) := ⟨rfl, rfl, by rfl⟩

theorem witness_IllegalWordAnsweredWithoutEffect :
    (presented [.cmd 0x010000000000000001] midway).busy = none ∧
      (presented [.cmd 0x010000000000000001] midway).host = .cmd 0x010000000000000001 :: [] ∧
      IllegalWord 0x010000000000000001 := ⟨rfl, rfl, by unfold IllegalWord; decide⟩

/-- The word and the state of each clause: illegal; RESET; WRITE failed, overflowing (the smallest such count), accepted
(the largest such count is all that is offered), waiting (one byte short); DIGEST failed and answered. -/
theorem witness_ResponsesFollowTheOrderOfChecks :
    (∃ t, step (presented [.cmd 0x000000000000000000] midway) = .next t) ∧
    (∃ t, step (presented [.cmd 0x010000000000000000] midway) = .next t) ∧
    (∃ t, step (presented [.cmd 0x020000000000000000] (engine IV [] 0 true)) = .next t) ∧
    (∃ t, step (presented [.cmd 0x021FFFFFFFFFFFFFFD] midway) = .next t ∧
      midway.LEN.toNat + 8 * (len64Field 0x021FFFFFFFFFFFFFFD).toNat = 2 ^ 64) ∧
    (∃ t, step (presented [.cmd 0x020000000000000003] midway) = .next t ∧ midway.din.length = 3) ∧
    (∃ t, step (presented [.cmd 0x020000000000000004] midway) = .next t) ∧
    (∃ t, step (presented [.cmd 0x030000000000000000] (engine IV [] 0 true)) = .next t) ∧
    (∃ t, step (presented [.cmd 0x030000000000000000] midway) = .next t) :=
  ⟨⟨_, rfl⟩, ⟨_, rfl⟩, ⟨_, rfl⟩, ⟨_, rfl, by decide⟩, ⟨_, rfl, rfl⟩, ⟨_, rfl⟩, ⟨_, rfl⟩, ⟨_, rfl⟩⟩

theorem witness_RstLeavesTheFreshState :
    (presented [.rst] midway).host = .rst :: [] ∧ (presented [.rst] waiting).host = .rst :: [] ∧
      (presented [.rst] waiting).busy ≠ none := by decide

/-- Both clauses on payload, at the boundary of the counter: the largest count that does not overflow, and the smallest that
does; and a word that is no WRITE. -/
theorem witness_RstDuringCommandAbandonsIt :
    (presented [.cmdCut 0x021FFFFFFFFFFFFFFC 2] midway).busy = none ∧
      (presented [.cmdCut 0x021FFFFFFFFFFFFFFC 2] midway).host = .cmdCut 0x021FFFFFFFFFFFFFFC 2 :: [] ∧
      opField 0x021FFFFFFFFFFFFFFC = 0x02 ∧ midway.ERR = false ∧
      midway.LEN.toNat + 8 * (len64Field 0x021FFFFFFFFFFFFFFC).toNat < 2 ^ 64 ∧
      2 ^ 64 = midway.LEN.toNat + 8 * (len64Field 0x021FFFFFFFFFFFFFFD).toNat ∧
      opField 0x030000000000000000 ≠ 0x02 := by decide

theorem witness_BusyCoreAcceptsNoCommand :
    ∃ t, step (presented [.cmd 0x010000000000000000] waiting) = .next t ∧ waiting.busy = some ⟨2, [0x34]⟩ ∧
      ∀ rest, (presented [.cmd 0x010000000000000000] waiting).host ≠ .rst :: rest :=
  ⟨_, rfl, rfl, by intro rest h; cases h⟩

/-- At the top of the buffer and of the counter: `FILL` = 63, `LEN` = 2^64 - 8 and no byte; and one byte that fills it. -/
theorem witness_WriteAbsorbsItsPayload :
    (HoldsBytes (engine IV (xs 63) (2 ^ 64 - 8) false) (xs 63) ∧
      (engine IV (xs 63) (2 ^ 64 - 8) false).LEN.toNat + 8 * 0 < 2 ^ 64) ∧
    (HoldsBytes (offered [0x6C] (engine IV (xs 63) 504 false)) (xs 63) ∧
      1 ≤ (offered [0x6C] (engine IV (xs 63) 504 false)).din.length) :=
  ⟨⟨holds_top _ rfl, by decide⟩, ⟨⟨by decide, by rfl⟩, by decide⟩⟩

theorem witness_WriteLeavesTheRestAlone :
    (∃ t, exec (.write 3) midway = .next t) ∧ (∃ t, exec (.write 4) midway = .next t) ∧
      counterOverflows midway.LEN (2 ^ 61) = true ∧ nextHas (exec (.write (2 ^ 61)) midway) State.ERR = true :=
  ⟨⟨_, rfl⟩, ⟨_, rfl⟩, by decide, by decide +kernel⟩

theorem witness_OverflowRejectsTheWholeWrite :
    (engine IV (xs 63) (2 ^ 64 - 8) false).ERR = false ∧
      2 ^ 64 = (engine IV (xs 63) (2 ^ 64 - 8) false).LEN.toNat + 8 * 1 := by decide

theorem witness_OverflowCheckIsExact :
    (0xFFFFFFFFFFFFFFF8 : BitVec 64).toNat = 8 * (2 ^ 61 - 1) ∧ counterOverflows 0xFFFFFFFFFFFFFFF8 0 = false ∧
      counterOverflows 0xFFFFFFFFFFFFFFF8 1 = true := by decide

theorem witness_FailedStateRefusesDataCommands : (engine IV (xs 3) 24 true).ERR = true := by decide

/-- One block (55 valid bytes) and two blocks (56). -/
theorem witness_DigestCompressesTheFinalBlocks :
    (HoldsBytes (engine IV (xs 55) 440 false) (xs 55) ∧ HoldsBytes (engine IV (xs 56) 448 false) (xs 56)) ∧
      midway.ERR = false :=
  ⟨⟨⟨by decide, by rfl⟩, ⟨by decide, by rfl⟩⟩, rfl⟩

theorem witness_DigestLeavesTheLiveEngine :
    (∃ t, exec .digest midway = .next t) ∧ (∃ t, exec .digest (engine IV [] 0 true) = .next t) :=
  ⟨⟨_, rfl⟩, ⟨_, rfl⟩⟩

theorem witness_DigestTwiceReturnsTheSameBytes : midway.ERR = false ∧ ∃ t, exec .digest midway = .next t :=
  ⟨rfl, ⟨_, rfl⟩⟩

theorem witness_ShortPayloadWaits :
    midway.ERR = false ∧ midway.LEN.toNat + 8 * 4 < 2 ^ 64 ∧ midway.din.length < 4 := by decide

theorem witness_WaitingWriteCompletesWhenFed :
    HoldsBytes midway [0x31, 0x32, 0x33] ∧ midway.din.length < 5 ∧
      5 ≤ midway.din.length + [0x34, 0x35, (0x36 : Byte)].length ∧ (∀ rest, midway.host ≠ .rst :: rest) ∧
      ∃ t, exec (.write 5) midway = .next t :=
  ⟨holds_midway, by decide, by decide, (by intro rest h; cases h), ⟨_, rfl⟩⟩

/-- Both clauses: a waiting WRITE owed one byte, with none on `din` and with exactly that byte (and one more). -/
theorem witness_WaitingWriteTakesItsPayload :
    Inv waiting ∧ waiting.busy = some ⟨2, [0x34]⟩ ∧ (∀ rest, waiting.host ≠ .rst :: rest) ∧
      [(0x34 : Byte)].length + waiting.din.length < 2 ∧
      Inv (offered [0x35, 0x36] waiting) ∧ 2 ≤ [(0x34 : Byte)].length + (offered [0x35] waiting).din.length ∧
      HoldsBytes (offered [0x35] waiting) [0x31, 0x32, 0x33] :=
  ⟨inv_waiting, rfl, (by intro rest h; cases h), by decide,
    ⟨inv_waiting.1, inv_waiting.2, inv_waiting.3, inv_waiting.4, inv_waiting.5, inv_waiting.6, inv_waiting.7⟩, by decide,
    by decide, by rfl⟩

theorem witness_BufferInputIgnoresChunking :
    (liveContext (engine IV (xs 63) 504 false)).FILL = 63 ∧
      memRead (liveContext (engine IV (xs 63) 504 false)).BUF 0 63 = .ok (xs 63) ∧ (liveContext State.reset).FILL = 0 :=
  ⟨by decide, by rfl, by decide⟩

/-- The entry fills on both sides of the two clauses, and the ends of the range. -/
theorem witness_PaddingDrainsFromFillFiftySix :
    memRead (liveContext (engine IV [] 0 false)).BUF 0 0 = .ok [] ∧
      memRead (liveContext (engine IV (xs 55) 440 false)).BUF 0 55 = .ok (xs 55) ∧
      memRead (liveContext (engine IV (xs 56) 448 false)).BUF 0 56 = .ok (xs 56) ∧
      memRead (liveContext (engine IV (xs 63) 504 false)).BUF 0 63 = .ok (xs 63) :=
  ⟨by rfl, by rfl, by rfl, by rfl⟩

theorem witness_PaddedMessageIsWholeBlocks : 53 < padZeros [(0x61 : Byte)].length ∧ padZeros 55 = 0 := by decide

theorem witness_AddWrapsAndRotateMovesBits : ∃ n i : Nat, 0 < n ∧ n < 32 ∧ i < 32 := ⟨31, 31, by decide⟩

theorem witness_RoundFunctionsBitByBit : ∃ i : Nat, i < 32 := ⟨31, by decide⟩

theorem witness_ScheduleFollowsItsRecurrence :
    blockAbc.length = 64 ∧ (∃ i : Nat, i < 16) ∧ ∃ i : Nat, 16 ≤ i ∧ i < 80 := ⟨by decide, ⟨15, by decide⟩, ⟨79, by decide⟩⟩

theorem witness_RoundMixesByItsRange : ∃ t : Nat, t < 80 := ⟨79, by decide⟩

theorem witness_CompressRunsEightyRoundsThenAddsBack :
    ∃ vars : Nat → Work, blockAbc.length = 64 ∧ vars 0 = initWork IV ∧
      ∀ t < 80, vars (t + 1) = round (schedule blockAbc) t (vars t) :=
  ⟨fun t => Nat.rec (initWork IV) (fun k v => round (schedule blockAbc) k v) t, by decide, rfl, fun _ _ => rfl⟩

theorem witness_SixteenWordRingComputesCompress : blockAbc.length = 64 := by decide

theorem witness_DigestBytesAreBigEndian : (∃ m : Nat, m < 4) ∧ ∃ k : Nat, k < 20 := ⟨⟨3, by decide⟩, ⟨19, by decide⟩⟩

theorem witness_ByteOrderRoundTrips : be32Bytes 0x61626380 = [0x61, 0x62, 0x63, 0x80] := by decide

theorem witness_HexDigestHasFortyCharacters : (serialize IV)[19]? = some 0xF0 := by decide

theorem witness_StepKeepsTheInvariant :
    (Inv midway ∧ ∃ t, step (presented [.cmd 0x020000000000000003] midway) = .next t) ∧
      (Inv waiting ∧ ∃ t, step waiting = .next t) :=
  ⟨⟨inv_midway, ⟨_, rfl⟩⟩, ⟨inv_waiting, ⟨_, rfl⟩⟩⟩

theorem witness_InvariantStateNeverStops : Inv midway ∧ Inv waiting := ⟨inv_midway, inv_waiting⟩

theorem witness_StaleCellsInfluenceNothing :
    SameButStale (engine IV [] 0 false) staleFresh ∧ ∃ t, step (engine IV [] 0 false) = .next t :=
  ⟨⟨rfl, by decide, rfl⟩, ⟨_, rfl⟩⟩

theorem witness_OnlyOverflowFailsAndOnlyResetRevives :
    (∃ t, step (presented [.cmd 0x022000000000000000] midway) = .next t ∧ t.ERR = true) ∧
      (∃ t, step (presented [.cmd 0x010000000000000000] (engine IV [] 0 true)) = .next t ∧ t.ERR = false) :=
  ⟨⟨_, rfl, rfl⟩, ⟨_, rfl, rfl⟩⟩

theorem witness_OnlyResetsAndCompressWriteTheChain :
    (∃ t, step (presented [.rst] midway) = .next t) ∧
      ∃ t, step (presented [.cmd 0x020000000000000001] (offered [0x6C] (engine IV (xs 63) 504 false))) = .next t :=
  ⟨⟨_, rfl⟩, ⟨_, rfl⟩⟩

/-- A waiting WRITE that completes, and a WRITE accepted and answered at once. -/
theorem witness_CounterOnlyGrowsUntilReset :
    (Inv waiting ∧ ∃ t, step (offered [0x35] waiting) = .next t ∧ Answered 0 t) ∧
      ∃ t, step (presented [.cmd 0x020000000000000003] midway) = .next t ∧ Answered 0 t :=
  ⟨⟨inv_waiting, ⟨_, rfl, ⟨rfl, rfl, rfl⟩⟩⟩, ⟨_, rfl, ⟨rfl, rfl, rfl⟩⟩⟩

theorem witness_StatusOutputsShowTheRegisters : Inv waiting ∧ stBusy waiting = true ∧ stBusy midway = false :=
  ⟨inv_waiting, rfl, rfl⟩

theorem witness_StepTracksTheAbsorbedMessage :
    (Inv midway ∧ Absorbed [0x31, 0x32, 0x33] midway) ∧
      (Inv waiting ∧ Absorbed [0x31, 0x32, 0x33] waiting ∧ ∃ t, step waiting = .next t) :=
  ⟨⟨inv_midway, absorbed_midway⟩, ⟨inv_waiting, absorbed_waiting, ⟨_, rfl⟩⟩⟩

theorem witness_DigestReturnsTheMessageDigest : Absorbed [0x31, 0x32, 0x33] midway ∧ midway.ERR = false :=
  ⟨absorbed_midway, rfl⟩

/-- Two payloads, one of them empty, from a fresh engine with a stale byte in its buffer. -/
theorem witness_WritesThenDigestReturnTheDigest :
    ∃ (s : State) (ps : List (List Byte)) (rest : List HostEvent) (more : List Byte), Inv s ∧ Absorbed [] s ∧ s.ERR = false ∧ s.busy = none ∧ ps.flatten.length < 2 ^ 61 ∧
      s.host = ps.map (fun p => HostEvent.cmd (encode (.write p.length))) ++ .cmd (encode .digest) :: rest ∧
      s.din = ps.flatten ++ more :=
  ⟨{ staleFresh with
      host := [.cmd (encode (.write 2)), .cmd (encode (.write 0)), .cmd (encode .digest), .rst], din := [1, 2, 3] },
    [[1, 2], []], [.rst], [3], ⟨inv_staleFresh.1, inv_staleFresh.2, inv_staleFresh.3, inv_staleFresh.4, inv_staleFresh.5,
      inv_staleFresh.6, inv_staleFresh.7⟩,
    ⟨absorbed_staleFresh.1, absorbed_staleFresh.2, absorbed_staleFresh.3, absorbed_staleFresh.4⟩, rfl, rfl, by decide, rfl,
    rfl⟩

theorem witness_ResetAbsorbsNothing : Inv waiting := inv_waiting

end Sys2Proof.Tests
end

section
/-! SUPPORT. The opcode map of 30_encoding.md R44: which words select a row, why no word selects two rows, and which
instruction the decoder reads from a word in terms of the row it selects. -/

namespace Sys2Proof.Proofs

theorem selects_iff {r : OpcodeRow} {c : CommandWord} : r.selects c = true ↔ c &&& r.mask = r.pattern :=
  beq_iff_eq

/-- Two rows whose patterns differ in a bit that both masks keep are never selected by one word. -/
theorem selects_eq_false_of_patterns_differ {r r' : OpcodeRow} {c : CommandWord}
    (hne : r.pattern &&& r'.mask ≠ r'.pattern &&& r.mask) (h : r.selects c = true) : r'.selects c = false := by
  refine Bool.eq_false_iff.2 fun h' => hne ?_
  calc r.pattern &&& r'.mask
      = c &&& r.mask &&& r'.mask := by rw [selects_iff.1 h]
    _ = c &&& r'.mask &&& r.mask := by rw [BitVec.and_assoc, BitVec.and_comm r.mask, BitVec.and_assoc]
    _ = r'.pattern &&& r.mask := by rw [selects_iff.1 h']

theorem writeRow_not_selects_of_resetRow {c : CommandWord} (h : resetRow.selects c = true) :
    writeRow.selects c = false :=
  selects_eq_false_of_patterns_differ (by decide) h

theorem digestRow_not_selects_of_resetRow {c : CommandWord} (h : resetRow.selects c = true) :
    digestRow.selects c = false :=
  selects_eq_false_of_patterns_differ (by decide) h

theorem digestRow_not_selects_of_writeRow {c : CommandWord} (h : writeRow.selects c = true) :
    digestRow.selects c = false :=
  selects_eq_false_of_patterns_differ (by decide) h

/-- The decoder reads an instruction exactly from the row the word selects; the order in which it tries the rows does
not matter, since they exclude each other. -/
theorem decodeWord_ok_iff (c : CommandWord) (i : Instr) :
    decodeWord c = .ok i ↔
      (resetRow.selects c = true ∧ i = .reset) ∨
      (writeRow.selects c = true ∧ i = .write (len64Field c).toNat) ∨
      (digestRow.selects c = true ∧ i = .digest) := by
  by_cases hr : resetRow.selects c = true
  · simp [decodeWord, hr, writeRow_not_selects_of_resetRow hr, digestRow_not_selects_of_resetRow hr, eq_comm]
  by_cases hw : writeRow.selects c = true
  · simp [decodeWord, hr, hw, digestRow_not_selects_of_writeRow hw, eq_comm]
  by_cases hd : digestRow.selects c = true
  · simp [decodeWord, hr, hw, hd, eq_comm]
  · simp [decodeWord, hr, hw, hd]

theorem decodeWord_eq_reset_iff (c : CommandWord) : decodeWord c = .ok .reset ↔ resetRow.selects c = true := by
  simp [decodeWord_ok_iff]

theorem decodeWord_eq_write_iff (c : CommandWord) (n : Nat) :
    decodeWord c = .ok (.write n) ↔ writeRow.selects c = true ∧ n = (len64Field c).toNat := by
  simp [decodeWord_ok_iff]

theorem decodeWord_eq_digest_iff (c : CommandWord) : decodeWord c = .ok .digest ↔ digestRow.selects c = true := by
  simp [decodeWord_ok_iff]

/-- Settles O4: the decoder's answer names the one row the word selects, and selecting is the masked comparison. -/
theorem decodeFollowsOpcodeMap : Obligations.DecodeFollowsOpcodeMap := fun c =>
  ⟨(decodeWord_eq_reset_iff c).trans selects_iff,
    fun n => (decodeWord_eq_write_iff c n).trans (and_congr_left' selects_iff),
    (decodeWord_eq_digest_iff c).trans selects_iff⟩

end Sys2Proof.Proofs
end

section
/-! SUPPORT. The block buffer of 40_block_buffer.md R61 and R64: what BB.INPUT and BB.PAD(8) do to a buffer whose valid bytes are known. -/

open Sys2Proof Sys2Proof.Machine Sys2Proof.Laws

namespace Sys2Proof.Proofs

/-! The buffer operations on known valid bytes. -/

theorem memRead_writeBytes_append {m : List Host.Cell} {a : Nat} {v s : List Byte} (hv : memRead m 0 a = .ok v)
    (h : a + s.length ≤ 64) : memRead (Memory.writeBytes m a s) 0 (a + s.length) = .ok (v ++ s) :=
  memRead_memWrite_append hv (memWrite_ok_iff.2 ⟨h, rfl⟩)

theorem storeBytes_extends_valid {c : Context} {v s : List Byte} (hv : memRead c.BUF 0 c.FILL = .ok v)
    (h : c.FILL + s.length ≤ 64) :
    ∃ m, storeBytes c.FILL s c = .ok { c with BUF := m } ∧ memRead m 0 (c.FILL + s.length) = .ok (v ++ s) :=
  ⟨_, storeBytes_ok_iff.2 ⟨h, rfl⟩, memRead_writeBytes_append hv h⟩

theorem appendBytes_extends_valid {c : Context} {v s : List Byte} (hv : memRead c.BUF 0 c.FILL = .ok v)
    (hs : 1 ≤ s.length) (h : c.FILL + s.length ≤ 64) :
    ∃ m, appendBytes s c = .ok { c with BUF := m, FILL := c.FILL + s.length } ∧
      memRead m 0 (c.FILL + s.length) = .ok (v ++ s) :=
  ⟨_, appendBytes_ok_iff.2 ⟨hs, h, rfl⟩, memRead_writeBytes_append hv h⟩

theorem bbZeroFill_extends_valid {c : Context} {v : List Byte} {limit : Nat} (hv : memRead c.BUF 0 c.FILL = .ok v)
    (hF : c.FILL ≤ limit) (hl : limit ≤ 64) :
    ∃ m, bbZeroFill limit c = .ok { c with BUF := m, FILL := limit } ∧
      memRead m 0 limit = .ok (v ++ zeros (limit - c.FILL)) := by
  have hlen : c.FILL + (zeros (limit - c.FILL)).length = limit := by rw [zeros, List.length_replicate]; omega
  refine ⟨_, bbZeroFill_ok_iff.2 ⟨hF, hl, rfl⟩, ?_⟩
  simpa only [hlen] using memRead_writeBytes_append hv (hlen.trans_le hl)

theorem bbDrain_compresses_valid {c : Context} {block : List Byte} (hF : c.FILL = 64)
    (hb : memRead c.BUF 0 64 = .ok block) :
    bbDrain c = .ok { c with H := compress c.H block, FILL := 0, trace := c.trace ++ [⟨block, c.side⟩] } :=
  bbDrain_ok_iff.2 ⟨hF, block, hb, rfl⟩

@[simp] theorem memRead_zero_zero (m : List Host.Cell) : memRead m 0 0 = .ok [] := rfl

/-! The whole blocks and the remainder of a concatenation. -/

theorem length_remainder (s : List Byte) : (remainder s).length = s.length % 64 := by
  rw [remainder, List.length_drop]; omega

theorem wholeBlocks_eq_nil {s : List Byte} (h : s.length < 64) : wholeBlocks s = [] := by
  rw [wholeBlocks, Nat.div_eq_of_lt h, blocksOf_zero]

theorem remainder_eq_self {s : List Byte} (h : s.length < 64) : remainder s = s := by
  rw [remainder, Nat.div_eq_of_lt h, Nat.mul_zero, List.drop_zero]

theorem wholeBlocks_eq_singleton {b : List Byte} (h : b.length = 64) : wholeBlocks b = [b] := by
  simp [wholeBlocks, h, List.take_of_length_le h.le]

theorem remainder_eq_nil {b : List Byte} (h : b.length = 64) : remainder b = [] :=
  List.length_eq_zero_iff.1 (by rw [length_remainder, h])

/-- Cutting off the whole blocks of the first part leaves its remainder in front of the second part. -/
theorem drop_blocks_append (s t : List Byte) : (s ++ t).drop (64 * (s.length / 64)) = remainder s ++ t :=
  List.drop_append_of_le_length (Nat.mul_div_le _ _)

theorem length_append_div (s t : List Byte) :
    (s ++ t).length / 64 = s.length / 64 + (remainder s ++ t).length / 64 := by
  simp only [List.length_append, length_remainder]; omega

theorem wholeBlocks_append (s t : List Byte) :
    wholeBlocks (s ++ t) = wholeBlocks s ++ wholeBlocks (remainder s ++ t) := by
  rw [wholeBlocks, length_append_div, blocksOf_add, blocksOf_append t (Nat.mul_div_le _ _), drop_blocks_append]
  rfl

theorem remainder_append (s t : List Byte) : remainder (s ++ t) = remainder (remainder s ++ t) := by
  rw [remainder, length_append_div, Nat.mul_add, ← List.drop_drop, drop_blocks_append, ← remainder]

theorem eventsOf_append (side : Side) (bs bs' : List (List Byte)) :
    eventsOf side (bs ++ bs') = eventsOf side bs ++ eventsOf side bs' := List.map_append

/-! What input does (40_block_buffer.md R61). -/

/-- `c'` is what `c` becomes when the bytes `s`, its own valid ones first, have gone through the buffer: the whole blocks of
`s` are compressed and recorded in order, the remainder of `s` is what the buffer holds. -/
structure Compresses (c : Context) (s : List Byte) (c' : Context) : Prop where
  side : c'.side = c.side
  chain : c'.H = compressAll c.H (wholeBlocks s)
  trace : c'.trace = c.trace ++ eventsOf c.side (wholeBlocks s)
  fill : c'.FILL = s.length % 64
  valid : memRead c'.BUF 0 c'.FILL = .ok (remainder s)

theorem Compresses.of_lt {c : Context} {s : List Byte} (hF : c.FILL < 64) (hs : memRead c.BUF 0 c.FILL = .ok s) :
    Compresses c s c := by
  have hlen : s.length = c.FILL := memRead_length hs
  have hlt : s.length < 64 := hlen.trans_lt hF
  constructor
  · rfl
  · rw [wholeBlocks_eq_nil hlt, compressAll_nil]
  · rw [wholeBlocks_eq_nil hlt, eventsOf, List.map_nil, List.append_nil]
  · rw [Nat.mod_eq_of_lt hlt, hlen]
  · rw [remainder_eq_self hlt, hs]

/-- What has gone through the buffer in two parts has gone through it as one: the second part starts with the bytes that
the first one left. -/
theorem Compresses.trans {c c' c'' : Context} {s t : List Byte} (h : Compresses c s c')
    (h' : Compresses c' (remainder s ++ t) c'') : Compresses c (s ++ t) c'' := by
  constructor
  · rw [h'.side, h.side]
  · rw [h'.chain, h.chain, wholeBlocks_append s t, compressAll_append]
  · rw [h'.trace, h.trace, h.side, wholeBlocks_append s t, eventsOf_append, List.append_assoc]
  · rw [h'.fill]; simp only [List.length_append, length_remainder]; omega
  · rw [h'.valid, ← remainder_append]

theorem Compresses.sameEffect {c c1 c2 : Context} {s : List Byte} (h1 : Compresses c s c1) (h2 : Compresses c s c2) :
    SameEffect c1 c2 where
  chain := h2.chain.trans h1.chain.symm
  fill := h2.fill.trans h1.fill.symm
  valid := h2.valid.trans h1.valid.symm
  trace := h2.trace.trans h1.trace.symm

theorem inputWholeBlocks_compresses (bytes : List Byte) (c : Context) :
    ∃ c', inputWholeBlocks bytes c = .ok c' ∧ Compresses c bytes c' := by
  refine ⟨_, inputWholeBlocks_ok bytes c, rfl, rfl, rfl, rfl, ?_⟩
  have hr : (remainder bytes).length = bytes.length % 64 := length_remainder bytes
  simpa [hr] using memRead_writeBytes_append (s := remainder bytes) (memRead_zero_zero c.BUF) (by omega)

/-- Step 1 of BB.INPUT when the payload completes the window (40_block_buffer.md R60). -/
theorem fillAndDrain_compresses {c : Context} {v s : List Byte} (hv : memRead c.BUF 0 c.FILL = .ok v)
    (hs : c.FILL + s.length = 64) :
    ∃ c1 c2, storeBytes c.FILL s c = .ok c1 ∧ bbDrain { c1 with FILL := 64 } = .ok c2 ∧ Compresses c (v ++ s) c2 := by
  obtain ⟨m, hstore, hm⟩ := storeBytes_extends_valid hv hs.le
  rw [hs] at hm
  have hlen : (v ++ s).length = 64 := memRead_length hm
  refine ⟨_, _, hstore, bbDrain_compresses_valid rfl hm, rfl, ?_, ?_, ?_, ?_⟩
  · rw [wholeBlocks_eq_singleton hlen, compressAll_cons, compressAll_nil]
  · rw [wholeBlocks_eq_singleton hlen, eventsOf, List.map_singleton]
  · rw [hlen]
  · rw [remainder_eq_nil hlen, memRead_zero_zero]

/-- BB.INPUT, by the three cases of its step 1: an empty window, a window the payload completes, a window it does not. -/
theorem bbInput_compresses {c : Context} {v : List Byte} (bytes : List Byte) (hF : c.FILL ≤ 63)
    (hv : memRead c.BUF 0 c.FILL = .ok v) : ∃ c', bbInput bytes c = .ok c' ∧ Compresses c (v ++ bytes) c' := by
  rw [bbInput, if_neg (by omega)]
  split_ifs with h0 hfull
  · have hnil : v = [] := List.length_eq_zero_iff.1 ((memRead_length hv).trans h0)
    rw [hnil]
    exact inputWholeBlocks_compresses bytes c
  · obtain ⟨c1, c2, hstore, hdrain, h12⟩ :=
      fillAndDrain_compresses (s := bytes.take (64 - c.FILL)) hv (by rw [List.length_take]; omega)
    obtain ⟨c3, hin, h23⟩ := inputWholeBlocks_compresses (bytes.drop (64 - c.FILL)) c2
    have hnil : remainder (v ++ bytes.take (64 - c.FILL)) = [] :=
      remainder_eq_nil (by rw [List.length_append, memRead_length hv, List.length_take]; omega)
    refine ⟨c3, by simp only [hstore, hdrain, hin], ?_⟩
    rw [← List.take_append_drop (64 - c.FILL) bytes, ← List.append_assoc]
    exact h12.trans (by rwa [hnil])
  · obtain ⟨m, hstore, hm⟩ := storeBytes_extends_valid (s := bytes) hv (by omega)
    rw [hstore]
    refine ⟨_, rfl, ?_⟩
    obtain ⟨hside, hchain, htrace, hfill, hvalid⟩ :=
      Compresses.of_lt (c := { c with BUF := m, FILL := c.FILL + bytes.length }) (by simp only; omega) hm
    exact ⟨hside, hchain, htrace, hfill, hvalid⟩

theorem bbInputAll_compresses {c : Context} {v : List Byte} (ps : List (List Byte)) (hF : c.FILL ≤ 63)
    (hv : memRead c.BUF 0 c.FILL = .ok v) :
    ∃ c', bbInputAll ps c = .ok c' ∧ Compresses c (v ++ ps.flatten) c' := by
  induction ps generalizing c v with
  | nil => exact ⟨c, rfl, by simpa using Compresses.of_lt (by omega) hv⟩
  | cons p ps ih =>
    obtain ⟨c1, hin, h1⟩ := bbInput_compresses p hF hv
    obtain ⟨c2, hall, h2⟩ := ih (by rw [h1.fill]; omega) h1.valid
    refine ⟨c2, by rw [bbInputAll, hin]; exact hall, ?_⟩
    rw [List.flatten_cons, ← List.append_assoc]
    exact h1.trans h2

/-- Settles O24: one call compresses the valid bytes followed by the payload; a sequence of calls and the one call on the
concatenation put the same bytes through the buffer. -/
theorem bufferInputIgnoresChunking : Obligations.BufferInputIgnoresChunking := by
  constructor
  · intro c v bytes hF hv
    obtain ⟨c', hin, h⟩ := bbInput_compresses bytes hF hv
    have hfill : c'.FILL = (c.FILL + bytes.length) % 64 := by
      rw [h.fill, List.length_append, memRead_length hv]
    exact ⟨c', hin, h.side, h.chain, h.trace, hfill, h.valid⟩
  · intro c ps hF
    have hv : memRead c.BUF 0 c.FILL = .ok [] := by rw [hF, memRead_zero_zero]
    obtain ⟨c1, hall, h1⟩ := bbInputAll_compresses ps (by omega) hv
    obtain ⟨c2, hone, h2⟩ := bbInput_compresses ps.flatten (by omega) hv
    exact ⟨c1, c2, hall, hone, h1.sameEffect h2⟩

/-! What BB.PAD(8) does (40_block_buffer.md R64). -/

/-- BB.PAD(8) where the marker leaves room for the length: the zeros reach to 56 and nothing is compressed. -/
theorem bbPad_of_fill_le {c : Context} {v : List Byte} (hF : c.FILL ≤ 55) (hv : memRead c.BUF 0 c.FILL = .ok v) :
    ∃ m, bbPad 8 c = .ok { c with BUF := m, FILL := 56 } ∧
      memRead m 0 56 = .ok (v ++ [padMarker] ++ zeros (55 - c.FILL)) := by
  obtain ⟨m1, happ, hm1⟩ := appendBytes_extends_valid (s := [padMarker]) hv (by decide)
    (by rw [List.length_singleton]; omega)
  rw [List.length_singleton] at happ hm1
  obtain ⟨m2, hzero, hm2⟩ := bbZeroFill_extends_valid (c := { c with BUF := m1, FILL := c.FILL + 1 }) (limit := 56) hm1
    (by simp only; omega) (by decide)
  rw [show 56 - (c.FILL + 1) = 55 - c.FILL by omega] at hm2
  have hroom : ¬ 64 - (c.FILL + 1) < 8 := by omega
  refine ⟨m2, ?_, hm2⟩
  rw [bbPad, if_pos (by decide), happ]
  simp only [hroom, hzero, if_false]

/-- BB.PAD(8) where the marker leaves no room for the length: the window is completed with zeros and drained, and 56 zeros
start the next one. -/
theorem bbPad_of_le_fill {c : Context} {v : List Byte} (hF : 56 ≤ c.FILL) (hF' : c.FILL ≤ 63)
    (hv : memRead c.BUF 0 c.FILL = .ok v) :
    ∃ m, bbPad 8 c = .ok { c with
        H := compress c.H (v ++ [padMarker] ++ zeros (63 - c.FILL)), BUF := m, FILL := 56,
        trace := c.trace ++ [⟨v ++ [padMarker] ++ zeros (63 - c.FILL), c.side⟩] } ∧
      memRead m 0 56 = .ok (zeros 56) := by
  obtain ⟨m1, happ, hm1⟩ := appendBytes_extends_valid (s := [padMarker]) hv (by decide)
    (by rw [List.length_singleton]; omega)
  rw [List.length_singleton] at happ hm1
  obtain ⟨m2, hzero, hm2⟩ := bbZeroFill_extends_valid (c := { c with BUF := m1, FILL := c.FILL + 1 }) (limit := 64) hm1
    (by simp only; omega) le_rfl
  rw [show 64 - (c.FILL + 1) = 63 - c.FILL by omega] at hm2
  have hdrain := bbDrain_compresses_valid (c := { c with BUF := m2, FILL := 64 }) rfl hm2
  have hroom : 64 - (c.FILL + 1) < 8 := by omega
  rw [bbPad, if_pos (by decide), happ]
  simp only [hroom, hzero, hdrain, if_true]
  refine bbZeroFill_extends_valid (v := []) ?_ ?_ ?_
  · exact memRead_zero_zero m2
  · exact Nat.zero_le 56
  · decide

/-- Settles O25: the marker fits with eight bytes to spare exactly when the entry `FILL` is at most 55. -/
theorem paddingDrainsFromFillFiftySix : Obligations.PaddingDrainsFromFillFiftySix := by
  intro c v hF hv
  rcases Nat.lt_or_ge c.FILL 56 with hlt | hge
  · obtain ⟨m, hpad, hm⟩ := bbPad_of_fill_le (by omega) hv
    exact ⟨_, hpad, rfl, rfl, fun _ => ⟨rfl, rfl, hm⟩, fun h => absurd h (by omega)⟩
  · obtain ⟨m, hpad, hm⟩ := bbPad_of_le_fill hge hF hv
    exact ⟨_, hpad, rfl, rfl, fun h => absurd h (by omega), fun _ => ⟨rfl, rfl, hm⟩⟩

end Sys2Proof.Proofs
end

section
/-! SUPPORT. The arithmetic and the round functions of the compression function (41_compression.md R68 to R75): what each one
does to every bit or to the sum, and which function and constant a round's range selects. -/

open Sys2Proof Sys2Proof.Machine

namespace Sys2Proof.Proofs

/-! Addition and rotation (R68, R69) are the library's on 32-bit vectors. -/

theorem add32_eq_add (x y : Word) : add32 x y = x + y := (BitVec.add_def x y).symm

theorem toNat_add32 (x y : Word) : (add32 x y).toNat = (x.toNat + y.toNat) % 2 ^ 32 := BitVec.toNat_ofNat ..

theorem rotl32_eq_rotateLeft (x : Word) {n : Nat} (hn : n < 32) : rotl32 x n = x.rotateLeft n := by
  rw [rotl32, BitVec.rotateLeft, BitVec.rotateLeftAux, Nat.mod_eq_of_lt hn]

/-- A bit that the shift keeps lands at `i + n`; one that it pushes out comes back `32` lower. -/
theorem getLsbD_rotl32 (x : Word) {n i : Nat} (hn : n < 32) (hi : i < 32) :
    (rotl32 x n).getLsbD ((i + n) % 32) = x.getLsbD i := by
  rw [rotl32_eq_rotateLeft x hn, BitVec.getLsbD_rotateLeft, Nat.mod_eq_of_lt hn]
  rcases Nat.lt_or_ge (i + n) 32 with hkept | hout
  · rw [Nat.mod_eq_of_lt hkept]
    simp [hkept]
  · have hmod : (i + n) % 32 = i + n - 32 := by omega
    have hlow : i + n - 32 < n := by omega
    have hback : 32 - n + (i + n - 32) = i := by omega
    simp [hmod, hlow, hback]

/-- Settles O27: `add32` is the library's addition, and rotation moves the kept bits up and the others around. -/
theorem addWrapsAndRotateMovesBits : Obligations.AddWrapsAndRotateMovesBits := by
  refine ⟨fun x y => ⟨toNat_add32 x y, ?_⟩, fun x y z => ?_, fun x n i _ hn hi => getLsbD_rotl32 x hn hi⟩
  · rw [add32_eq_add, add32_eq_add, BitVec.add_comm]
  · simp only [add32_eq_add, BitVec.add_assoc]

/-! The round functions bit by bit (R72 to R75), and the corner cases of R72 to R74 as consequences. -/

theorem getLsbD_F0 (b c d : Word) {i : Nat} (hi : i < 32) :
    (F0 b c d).getLsbD i = if b.getLsbD i then c.getLsbD i else d.getLsbD i := by
  rw [F0, BitVec.getLsbD_or, BitVec.getLsbD_and, BitVec.getLsbD_and, BitVec.getLsbD_not, decide_eq_true hi]
  cases b.getLsbD i <;> simp

theorem getLsbD_F1 (b c d : Word) (i : Nat) :
    (F1 b c d).getLsbD i = (b.getLsbD i ^^ c.getLsbD i ^^ d.getLsbD i) := by
  rw [F1, BitVec.getLsbD_xor, BitVec.getLsbD_xor]

theorem getLsbD_F2 (b c d : Word) (i : Nat) :
    (F2 b c d).getLsbD i =
      ((b.getLsbD i && c.getLsbD i) || (b.getLsbD i && d.getLsbD i) || (c.getLsbD i && d.getLsbD i)) := by
  simp only [F2, BitVec.getLsbD_or, BitVec.getLsbD_and]

theorem F3_eq_F1 (b c d : Word) : F3 b c d = F1 b c d := rfl

theorem getLsbD_ones {i : Nat} (hi : i < 32) : (0xFFFFFFFF : Word).getLsbD i = true := by
  rw [show (0xFFFFFFFF : Word) = BitVec.allOnes 32 from rfl, BitVec.getLsbD_allOnes, decide_eq_true hi]

theorem F0_ones (c d : Word) : F0 0xFFFFFFFF c d = c :=
  BitVec.eq_of_getLsbD_eq fun i hi => by rw [getLsbD_F0 _ _ _ hi, getLsbD_ones hi, if_pos rfl]

theorem F0_zero (c d : Word) : F0 0 c d = d :=
  BitVec.eq_of_getLsbD_eq fun i hi => by simp [getLsbD_F0 _ _ _ hi]

theorem F0_same (b x : Word) : F0 b x x = x :=
  BitVec.eq_of_getLsbD_eq fun i hi => by rw [getLsbD_F0 _ _ _ hi, ite_self]

theorem F1_same (x d : Word) : F1 x x d = d := by rw [F1, BitVec.xor_self, BitVec.zero_xor]

theorem F2_same (x d : Word) : F2 x x d = x :=
  BitVec.eq_of_getLsbD_eq fun i _ => by cases hx : x.getLsbD i <;> simp [getLsbD_F2, hx]

theorem F2_zero (c d : Word) : F2 0 c d = c &&& d :=
  BitVec.eq_of_getLsbD_eq fun i _ => by simp [getLsbD_F2]

/-- Beside a 1, one more 1 makes the majority. -/
theorem F2_ones (c d : Word) : F2 0xFFFFFFFF c d = c ||| d :=
  BitVec.eq_of_getLsbD_eq fun i hi => by
    rw [getLsbD_F2, getLsbD_ones hi, BitVec.getLsbD_or, Bool.true_and, Bool.true_and]
    cases c.getLsbD i <;> simp

/-- Settles O28, from the bit law of each function and the corner cases it gives. -/
theorem roundFunctionsBitByBit : Obligations.RoundFunctionsBitByBit := by
  refine ⟨fun b c d i hi => ⟨getLsbD_F0 b c d hi, getLsbD_F1 b c d i, getLsbD_F2 b c d i, ?_⟩, fun b c d x => ?_⟩
  · rw [F3_eq_F1, getLsbD_F1]
  · exact ⟨F0_ones c d, F0_zero c d, F0_same b x, F1_same x d, F1_same 0 0, F1_same 0xFFFFFFFF 0xFFFFFFFF,
      F2_same x d, F2_zero c d, F2_ones c d, F3_eq_F1 b c d⟩

/-! What a round's range selects (R71). -/

/-- The index `floor(t / 20)` names the range of `t`. -/
theorem roundConstant_eq (t : Nat) :
    roundConstant t =
      if t < 20 then 0x5A827999 else if t < 40 then 0x6ED9EBA1 else if t < 60 then 0x8F1BBCDC else 0xCA62C1D6 := by
  rw [roundConstant]
  split_ifs with h20 h40 h60
  · rw [show t / 20 = 0 by omega]; rfl
  · rw [show t / 20 = 1 by omega]; rfl
  · rw [show t / 20 = 2 by omega]; rfl
  · obtain ⟨k, hk⟩ : ∃ k, t / 20 = k + 3 := ⟨t / 20 - 3, by omega⟩
    rw [hk]; rfl

/-- Settles O30: the round is its five assignments, with the constant of the range of `t`. -/
theorem roundMixesByItsRange : Obligations.RoundMixesByItsRange := by
  intro W t v _
  rw [Machine.round, roundWith, roundConstant_eq]
  rfl

end Sys2Proof.Proofs
end

section
/-! SUPPORT. The message schedule, the order of the rounds, and the 16-word ring (41_compression.md R76 to R83): every word of
the schedule, the rounds as a sequence of working variables, and what the ring holds before each round. -/

open Sys2Proof Sys2Proof.Machine

namespace Sys2Proof.Proofs

/-! The words of a list. -/

theorem wordAt_append_of_lt {W : List Word} (X : List Word) {i : Nat} (hi : i < W.length) :
    wordAt (W ++ X) i = wordAt W i :=
  List.getD_append W X 0 i hi

theorem wordAt_append_length (W : List Word) (w : Word) : wordAt (W ++ [w]) W.length = w := by
  rw [wordAt, List.getD_append_right W [w] 0 W.length le_rfl, Nat.sub_self, List.getD_cons_zero]

theorem wordAt_set_self {S : List Word} {k : Nat} (w : Word) (hk : k < S.length) : wordAt (S.set k w) k = w := by
  rw [wordAt, List.getD_eq_getElem?_getD, List.getElem?_set_self hk, Option.getD_some]

theorem wordAt_set_ne (S : List Word) {k j : Nat} (w : Word) (h : k ≠ j) : wordAt (S.set k w) j = wordAt S j := by
  rw [wordAt, List.getD_eq_getElem?_getD, List.getElem?_set_ne h, ← List.getD_eq_getElem?_getD, wordAt]

/-! PARSE and EXPAND (R76, R77). -/

theorem length_parse (block : List Byte) : (parse block).length = 16 := by
  rw [parse, List.length_map, List.length_range]

theorem wordAt_parse (block : List Byte) {i : Nat} (hi : i < 16) : wordAt (parse block) i = blockWord block i := by
  rw [wordAt, List.getD_eq_getElem _ _ (by rwa [length_parse])]
  simp [parse]

theorem length_expandFrom (count i : Nat) (W : List Word) : (expandFrom count i W).length = W.length + count := by
  induction count generalizing i W with
  | zero => rfl
  | succ count ih => rw [expandFrom, ih, List.length_append, List.length_singleton]; omega

/-- EXPAND only appends: the words that are there stay. -/
theorem wordAt_expandFrom_of_lt {count i j : Nat} {W : List Word} (hj : j < W.length) :
    wordAt (expandFrom count i W) j = wordAt W j := by
  induction count generalizing i W with
  | zero => rfl
  | succ count ih =>
    rw [expandFrom, ih (by rw [List.length_append]; omega), wordAt_append_of_lt _ hj]

/-- The expression of R77 looks at earlier words only, so EXPAND does not change its value. -/
theorem scheduleWord_expandFrom {count i : Nat} {W : List Word} (hi : 16 ≤ i) (hW : W.length = i) (k : Nat) :
    scheduleWord (expandFrom count k W) i = scheduleWord W i := by
  simp only [scheduleWord]
  rw [wordAt_expandFrom_of_lt (by omega), wordAt_expandFrom_of_lt (by omega), wordAt_expandFrom_of_lt (by omega),
    wordAt_expandFrom_of_lt (by omega)]

/-- Every appended word is the expression of R77 on the finished schedule: the first one because what comes after it does
not change the words it is made of, the others by induction. -/
theorem wordAt_expandFrom_of_ge {count i j : Nat} {W : List Word} (hi : 16 ≤ i) (hW : W.length = i) (hij : i ≤ j)
    (hj : j < i + count) : wordAt (expandFrom count i W) j = scheduleWord (expandFrom count i W) j := by
  induction count generalizing i W with
  | zero => omega
  | succ count ih =>
    rcases hij.eq_or_lt with rfl | hlt
    · rw [scheduleWord_expandFrom hi hW, expandFrom, wordAt_expandFrom_of_lt (by simp [hW]), ← hW,
        wordAt_append_length]
    · exact ih (by omega) (by simp [hW]) (by omega) (by omega)

theorem length_schedule (block : List Byte) : (schedule block).length = 80 := by
  rw [schedule, expand, length_expandFrom, length_parse]

theorem wordAt_schedule_of_lt (block : List Byte) {i : Nat} (hi : i < 16) :
    wordAt (schedule block) i = wordAt (parse block) i :=
  wordAt_expandFrom_of_lt (by rwa [length_parse])

theorem wordAt_schedule_of_ge (block : List Byte) {i : Nat} (hi : 16 ≤ i) (hi' : i < 80) :
    wordAt (schedule block) i = scheduleWord (schedule block) i :=
  wordAt_expandFrom_of_ge le_rfl (length_parse block) hi hi'

/-- Settles O29: PARSE gives the first 16 words, which EXPAND keeps, and EXPAND gives the others. -/
theorem scheduleFollowsItsRecurrence : Obligations.ScheduleFollowsItsRecurrence := by
  intro block _
  refine ⟨length_schedule block, fun i hi => ?_, fun i hi hi' => wordAt_schedule_of_ge block hi hi'⟩
  rw [wordAt_schedule_of_lt block hi, wordAt_parse block hi, blockWord]

/-! The rounds in order (R79 to R83). -/

/-- Rounds `t` to `t + count - 1` lead from member `t` to member `t + count` of a sequence whose steps are the rounds. -/
theorem roundsFrom_eq_of_steps {W : List Word} {vars : Nat → Work} {count t : Nat}
    (h : ∀ u, t ≤ u → u < t + count → vars (u + 1) = round W u (vars u)) :
    roundsFrom W count t (vars t) = vars (t + count) := by
  induction count generalizing t with
  | zero => rfl
  | succ count ih =>
    rw [roundsFrom, ← h t le_rfl (by omega), ih fun u hu hu' => h u (by omega) (by omega), Nat.add_right_comm,
      Nat.add_assoc]

theorem compress_eq (H : Chain) (block : List Byte) :
    compress H block = addBack H (roundsFrom (schedule block) 80 0 (initWork H)) := by
  unfold compress; rfl

/-- Settles O49: INITWORK and ADDBACK word by word, and the 80 rounds as a sequence of working variables. -/
theorem compressRunsEightyRoundsThenAddsBack : Obligations.CompressRunsEightyRoundsThenAddsBack := by
  refine ⟨fun H => rfl, fun H v => ?_, fun H block vars _ h0 hstep => ?_⟩
  · exact ⟨toNat_add32 .., toNat_add32 .., toNat_add32 .., toNat_add32 .., toNat_add32 ..⟩
  · have hrun : roundsFrom (schedule block) 80 0 (vars 0) = vars (0 + 80) :=
      roundsFrom_eq_of_steps fun u _ hu => hstep u (by omega)
    rw [compress_eq, ← h0, hrun, Nat.zero_add]

/-! The 16-word ring (R82). -/

/-- Before round `t` the ring `S` holds, each in the slot of its index modulo 16, the last 16 words of the schedule `W` that
have been computed: `W[0..15]` up to round 16, then `W[t-16..t-1]`. -/
structure RingHolds (W S : List Word) (t : Nat) : Prop where
  size : S.length = 16
  slot : ∀ i, i < max t 16 → t ≤ i + 16 → wordAt S (i % 16) = wordAt W i

theorem ringHolds_parse (block : List Byte) : RingHolds (schedule block) (parse block) 0 where
  size := length_parse block
  slot i hi _ := by
    have hi16 : i < 16 := hi
    rw [Nat.mod_eq_of_lt hi16, wordAt_schedule_of_lt block hi16]

/-- The expression of R82 on the ring is that of R77 on the schedule: `W[t-16]` is in slot `t mod 16`. -/
theorem RingHolds.scheduleWord_eq {W S : List Word} {t : Nat} (h : RingHolds W S t) (ht : 16 ≤ t) :
    rotl32 (wordAt S ((t - 3) % 16) ^^^ wordAt S ((t - 8) % 16) ^^^ wordAt S ((t - 14) % 16) ^^^ wordAt S (t % 16)) 1 =
      scheduleWord W t := by
  rw [scheduleWord, h.slot (t - 3) (by omega) (by omega), h.slot (t - 8) (by omega) (by omega),
    h.slot (t - 14) (by omega) (by omega), show t % 16 = (t - 16) % 16 by omega,
    h.slot (t - 16) (by omega) (by omega)]

/-- One step of the ring: before round 16 nothing falls out of it, from then on `W[t]` takes the slot of `W[t-16]`. -/
theorem RingHolds.step {W S : List Word} {t : Nat} (h : RingHolds W S t)
    (hW : 16 ≤ t → wordAt W t = scheduleWord W t) : RingHolds W (ringStep S t) (t + 1) := by
  rw [ringStep]
  split_ifs with ht
  · exact ⟨h.size, fun i hi _ => h.slot i (by omega) (by omega)⟩
  · rw [h.scheduleWord_eq (by omega)]
    refine ⟨by rw [List.length_set, h.size], fun i hi hti => ?_⟩
    rcases eq_or_ne i t with rfl | hne
    · rw [wordAt_set_self _ (by rw [h.size]; omega), hW (by omega)]
    · rw [wordAt_set_ne S _ (by omega), h.slot i (by omega) (by omega)]

theorem ringRoundsFrom_eq {block : List Byte} {S : List Word} {count t : Nat} (v : Work)
    (h : RingHolds (schedule block) S t) (ht : t + count ≤ 80) :
    ringRoundsFrom count t S v = roundsFrom (schedule block) count t v := by
  induction count generalizing t S v with
  | zero => rfl
  | succ count ih =>
    have hnext : RingHolds (schedule block) (ringStep S t) (t + 1) :=
      h.step fun h16 => wordAt_schedule_of_ge block h16 (by omega)
    have hword : wordAt (ringStep S t) (t % 16) = wordAt (schedule block) t := hnext.slot t (by omega) (by omega)
    rw [ringRoundsFrom, roundsFrom, Machine.round, hword, ih _ hnext (by omega)]

/-- Settles O31: the ring holds the schedule word of every round, so the rounds over it are those of `compress`. -/
theorem sixteenWordRingComputesCompress : Obligations.SixteenWordRingComputesCompress := by
  intro H block _
  rw [compressRing, compress_eq, ringRoundsFrom_eq _ (ringHolds_parse block) le_rfl]

end Sys2Proof.Proofs
end

section
/-! SUPPORT. The byte order of 00_scope.md R9 and the digest port (42_engine_commands.md R94; 30_encoding.md R51): a
big-endian byte sequence is a number in base 256, so its bytes can be read back from the number. -/

open Sys2Proof Sys2Proof.Machine

namespace Sys2Proof.Proofs

/-- `beNat` is the library's digit sum, which puts the least significant digit first. -/
theorem beNat_eq_ofDigits (D : List Byte) : beNat D = Nat.ofDigits 256 (D.reverse.map BitVec.toNat) := by
  rw [beNat, List.foldl_eq_foldr_reverse, Nat.ofDigits_eq_foldr, List.foldr_map]
  simp only [Nat.cast_id, Nat.mul_comm, Nat.add_comm]

theorem beNat_append (D E : List Byte) : beNat (D ++ E) = beNat D * 256 ^ E.length + beNat E := by
  rw [beNat_eq_ofDigits, List.reverse_append, List.map_append, Nat.ofDigits_append, List.length_map,
    List.length_reverse, ← beNat_eq_ofDigits, ← beNat_eq_ofDigits, Nat.mul_comm, Nat.add_comm]

theorem beNat_lt (D : List Byte) : beNat D < 256 ^ D.length := by
  have hdigit : ∀ x ∈ D.reverse.map BitVec.toNat, x < 256 := List.forall_mem_map.2 fun b _ => b.isLt
  simpa only [beNat_eq_ofDigits, List.length_map, List.length_reverse] using
    Nat.ofDigits_lt_base_pow_length (by decide) hdigit

/-- Byte `k` of a sequence is the digit of its number with as many digits below it as there are bytes after it. -/
theorem beNat_div_mod {D : List Byte} {k : Nat} (hk : k < D.length) :
    beNat D / 256 ^ (D.length - 1 - k) % 256 = D[k].toNat := by
  have hsplit : D = D.take k ++ [D[k]] ++ D.drop (k + 1) := by simp
  have hlow : beNat (D.drop (k + 1)) < 256 ^ (D.length - 1 - k) := by
    simpa [Nat.sub_sub, Nat.add_comm] using beNat_lt (D.drop (k + 1))
  have hnum : beNat D = (beNat (D.take k) * 256 + D[k].toNat) * 256 ^ (D.length - 1 - k) + beNat (D.drop (k + 1)) := by
    conv_lhs => rw [hsplit, beNat_append, beNat_append]
    simp [beNat, Nat.sub_sub, Nat.add_comm]
  rw [hnum, Nat.mul_comm, Nat.mul_add_div (Nat.pow_pos (by decide)), Nat.div_eq_of_lt hlow, Nat.add_zero,
    Nat.mul_add_mod_self_right, Nat.mod_eq_of_lt D[k].isLt]

theorem toNat_append_eq {m n : Nat} (x : BitVec m) (y : BitVec n) : (x ++ y).toNat = x.toNat * 2 ^ n + y.toNat := by
  rw [BitVec.toNat_append, ← Nat.shiftLeft_add_eq_or_of_lt y.isLt, Nat.shiftLeft_eq]

theorem beNat_be32Bytes (w : Word) : beNat (be32Bytes w) = w.toNat := by
  have hw : w.toNat < 2 ^ 32 := w.isLt
  simp only [beNat, be32Bytes, List.foldl_cons, List.foldl_nil, BitVec.extractLsb'_toNat, Nat.shiftRight_eq_div_pow]
  omega

@[simp] theorem length_be32Bytes (w : Word) : (be32Bytes w).length = 4 := rfl

@[simp] theorem length_serialize (X : Chain) : (serialize X).length = 20 := rfl

theorem digestPort_serialize (X : Chain) : digestPort (serialize X) = X.h0 ++ X.h1 ++ X.h2 ++ X.h3 ++ X.h4 := by
  refine BitVec.eq_of_toNat_eq ?_
  have hnum : beNat (serialize X) = (X.h0 ++ X.h1 ++ X.h2 ++ X.h3 ++ X.h4).toNat := by
    simp only [serialize, beNat_append, beNat_be32Bytes, toNat_append_eq, length_be32Bytes, Nat.reducePow]
  rw [digestPort, hnum, BitVec.toNat_ofNat, Nat.mod_eq_of_lt (X.h0 ++ X.h1 ++ X.h2 ++ X.h3 ++ X.h4).isLt]

/-- Byte `k` of twenty stands on `dout` below the `k` bytes before it. -/
theorem getElem?_eq_extractLsb'_digestPort {D : List Byte} (hD : D.length = 20) {k : Nat} (hk : k < 20) :
    D[k]? = some ((digestPort D).extractLsb' (152 - 8 * k) 8) := by
  have hkD : k < D.length := hk.trans_eq hD.symm
  rw [List.getElem?_eq_getElem hkD, Option.some_inj]
  refine BitVec.eq_of_toNat_eq ?_
  have hport : (digestPort D).toNat = beNat D := by
    rw [digestPort, BitVec.toNat_ofNat, Nat.mod_eq_of_lt]
    simpa [hD] using beNat_lt D
  have hpow : 2 ^ (152 - 8 * k) = 256 ^ (D.length - 1 - k) := by
    rw [show 256 = 2 ^ 8 from rfl, ← Nat.pow_mul, hD]; congr 1; omega
  rw [BitVec.extractLsb'_toNat, hport, Nat.shiftRight_eq_div_pow, hpow, ← beNat_div_mod hkD]

theorem getElem?_serialize (X : Chain) {m : Nat} (hm : m < 4) :
    (serialize X)[m]? = some (X.h0.extractLsb' (24 - 8 * m) 8) ∧
    (serialize X)[4 + m]? = some (X.h1.extractLsb' (24 - 8 * m) 8) ∧
    (serialize X)[8 + m]? = some (X.h2.extractLsb' (24 - 8 * m) 8) ∧
    (serialize X)[12 + m]? = some (X.h3.extractLsb' (24 - 8 * m) 8) ∧
    (serialize X)[16 + m]? = some (X.h4.extractLsb' (24 - 8 * m) 8) := by
  interval_cases m <;> exact ⟨rfl, rfl, rfl, rfl, rfl⟩

/-- Settles O32: the bytes by their places in the list, the port as one number in base 256. -/
theorem digestBytesAreBigEndian : Obligations.DigestBytesAreBigEndian := fun X =>
  ⟨length_serialize X, fun _ hm => getElem?_serialize X hm, digestPort_serialize X,
    fun _ hk => getElem?_eq_extractLsb'_digestPort (length_serialize X) hk⟩

end Sys2Proof.Proofs
end

section
/-! SUPPORT. DIGEST and RESET (42_engine_commands.md R88, R92 to R95): the blocks DIGEST compresses on its snapshot, and why it
can answer only when the valid bytes are readable. -/

open Sys2Proof Sys2Proof.Machine Sys2Proof.Laws

namespace Sys2Proof.Proofs

/-! DIGEST on known valid bytes (R95). -/

theorem length_be64Bytes (LEN : BitVec 64) : (be64Bytes LEN).length = 8 := rfl

/-- The body of DIGEST after its padding: the length completes the window that 56 bytes have started, and the window is
drained. -/
theorem padAndFinish_of_bbPad {c c1 : Context} {u : List Byte} (LEN : BitVec 64) (hpad : bbPad 8 c = .ok c1)
    (hF : c1.FILL = 56) (hu : memRead c1.BUF 0 56 = .ok u) :
    ∃ m, padAndFinish LEN c = .ok { c1 with
      H := compress c1.H (u ++ be64Bytes LEN), BUF := m, FILL := 0,
      trace := c1.trace ++ [⟨u ++ be64Bytes LEN, c1.side⟩] } := by
  obtain ⟨m, happ, hm⟩ := appendBytes_extends_valid (s := be64Bytes LEN) (hF ▸ hu)
    (by rw [length_be64Bytes]; decide) (by rw [hF, length_be64Bytes])
  rw [hF, length_be64Bytes] at happ hm
  refine ⟨m, ?_⟩
  simp only [padAndFinish, hpad, happ]
  exact bbDrain_compresses_valid rfl hm

/-- The body of DIGEST compresses the final blocks in order and records them, in one window or two as BB.PAD has room. -/
theorem padAndFinish_compresses_finalBlocks {c : Context} {v : List Byte} (LEN : BitVec 64) (hF : c.FILL ≤ 63)
    (hv : memRead c.BUF 0 c.FILL = .ok v) :
    ∃ m, padAndFinish LEN c = .ok { c with
      H := compressAll c.H (finalBlocks v LEN), BUF := m, FILL := 0,
      trace := c.trace ++ eventsOf c.side (finalBlocks v LEN) } := by
  have hlen : v.length = c.FILL := memRead_length hv
  rcases Nat.lt_or_ge c.FILL 56 with hlt | hge
  · obtain ⟨m, hpad, hm⟩ := bbPad_of_fill_le (Nat.le_of_lt_succ hlt) hv
    obtain ⟨m', hbody⟩ := padAndFinish_of_bbPad LEN hpad rfl hm
    refine ⟨m', hbody.trans ?_⟩
    rw [finalBlocks, if_pos (by omega), hlen]
    rfl
  · obtain ⟨m, hpad, hm⟩ := bbPad_of_le_fill hge hF hv
    obtain ⟨m', hbody⟩ := padAndFinish_of_bbPad LEN hpad rfl hm
    refine ⟨m', hbody.trans ?_⟩
    rw [finalBlocks, if_neg (by omega), hlen]
    simp [eventsOf]

/-- Settles O19: the snapshot starts from the live registers, so the final blocks are those of the live valid bytes. -/
theorem digestCompressesTheFinalBlocks : Obligations.DigestCompressesTheFinalBlocks := by
  rintro s v ⟨hF, hv⟩ hE
  obtain ⟨m, hbody⟩ := padAndFinish_compresses_finalBlocks (c := snapshotContext s) s.LEN (Nat.le_of_lt_succ hF) hv
  rw [exec, execDigest, if_neg (by simp [hE]), hbody]
  rfl

/-! DIGEST answers only where the valid bytes are readable: whatever it reads at the end, it has stored above them or not at
all. -/

/-- The valid bytes of a context can be read. -/
def Readable (c : Context) : Prop := ∃ v, memRead c.BUF 0 c.FILL = .ok v

theorem exists_memRead_of_writeBytes {m : List Host.Cell} {a n : Nat} {s bs : List Byte} (ha : a ≤ n)
    (h : memRead (Memory.writeBytes m a s) 0 n = .ok bs) : ∃ v, memRead m 0 a = .ok v := by
  refine ⟨bs.take a, memRead_congr (fun x _ hx => ?_) (memRead_take h ha)⟩
  rw [read_writeBytes, if_neg (by omega)]

theorem Readable.of_appendBytes {c c' : Context} {s : List Byte} (h : appendBytes s c = .ok c') (h' : Readable c') :
    Readable c := by
  obtain ⟨-, -, rfl⟩ := appendBytes_ok_iff.1 h
  obtain ⟨bs, hbs⟩ := h'
  exact exists_memRead_of_writeBytes (Nat.le_add_right ..) hbs

theorem Readable.of_bbZeroFill {c c' : Context} {limit : Nat} (h : bbZeroFill limit c = .ok c') (h' : Readable c') :
    Readable c := by
  obtain ⟨hF, -, rfl⟩ := bbZeroFill_ok_iff.1 h
  obtain ⟨bs, hbs⟩ := h'
  exact exists_memRead_of_writeBytes hF hbs

theorem Readable.of_bbDrain {c c' : Context} (h : bbDrain c = .ok c') : Readable c := by
  obtain ⟨hF, block, hb, -⟩ := bbDrain_ok_iff.1 h
  exact ⟨block, hF ▸ hb⟩

/-- What BB.PAD(8) has done when it answers: the marker, and either the zeros up to the length or a drain between two runs of
zeros. -/
theorem bbPad_ok {c c' : Context} (h : bbPad 8 c = .ok c') :
    ∃ c1, appendBytes [padMarker] c = .ok c1 ∧
      (bbZeroFill 56 c1 = .ok c' ∨
        ∃ c2 c3, bbZeroFill 64 c1 = .ok c2 ∧ bbDrain c2 = .ok c3 ∧ bbZeroFill 56 c3 = .ok c') := by
  rw [bbPad, if_pos (by decide)] at h
  split at h
  next c1 happ =>
    refine ⟨c1, happ, ?_⟩
    split_ifs at h with hroom
    · split at h
      next c2 hzero =>
        split at h
        next c3 hdrain => exact .inr ⟨c2, c3, hzero, hdrain, h⟩
        next => cases h
      next => cases h
    · exact .inl h
  next => cases h

theorem Readable.of_bbPad {c c' : Context} (h : bbPad 8 c = .ok c') (h' : Readable c') : Readable c := by
  obtain ⟨c1, happ, hzero | ⟨c2, c3, hzero, hdrain, -⟩⟩ := bbPad_ok h
  · exact .of_appendBytes happ (.of_bbZeroFill hzero h')
  · exact .of_appendBytes happ (.of_bbZeroFill hzero (.of_bbDrain hdrain))

/-- What the body of DIGEST has done when it answers: the padding, the length, the last drain. -/
theorem padAndFinish_ok {LEN : BitVec 64} {c c' : Context} (h : padAndFinish LEN c = .ok c') :
    ∃ c1 c2, bbPad 8 c = .ok c1 ∧ appendBytes (be64Bytes LEN) c1 = .ok c2 ∧ bbDrain c2 = .ok c' := by
  rw [padAndFinish] at h
  split at h
  next c1 hpad =>
    split at h
    next c2 happ => exact ⟨c1, c2, hpad, happ, h⟩
    next => cases h
  next => cases h

theorem Readable.of_padAndFinish {LEN : BitVec 64} {c c' : Context} (h : padAndFinish LEN c = .ok c') : Readable c := by
  obtain ⟨c1, c2, hpad, happ, hdrain⟩ := padAndFinish_ok h
  exact .of_bbPad hpad (.of_appendBytes happ (.of_bbDrain hdrain))

theorem fill_lt_of_padAndFinish {LEN : BitVec 64} {c c' : Context} (h : padAndFinish LEN c = .ok c') : c.FILL < 64 := by
  obtain ⟨c1, -, hpad, -, -⟩ := padAndFinish_ok h
  obtain ⟨c2, happ, -⟩ := bbPad_ok hpad
  obtain ⟨-, hroom, -⟩ := appendBytes_ok_iff.1 happ
  rw [List.length_singleton] at hroom
  omega

/-- The state in which DIGEST was answered with a digest holds its valid bytes. -/
theorem holdsBytes_of_padAndFinish {LEN : BitVec 64} {s : State} {c : Context}
    (h : padAndFinish LEN (snapshotContext s) = .ok c) : ∃ v, HoldsBytes s v := by
  obtain ⟨v, hv⟩ := Readable.of_padAndFinish h
  exact ⟨v, fill_lt_of_padAndFinish h, hv⟩

theorem length_finalBlocks (v : List Byte) (LEN : BitVec 64) :
    (finalBlocks v LEN).length = 1 ∨ (finalBlocks v LEN).length = 2 := by
  rw [finalBlocks]
  split_ifs
  · exact .inl rfl
  · exact .inr rfl

theorem side_of_mem_eventsOf {side : Side} {bs : List (List Byte)} {e : Event} (h : e ∈ eventsOf side bs) :
    e.side = side := by
  obtain ⟨b, -, rfl⟩ := List.mem_map.1 h
  rfl

/-- Settles O20: refused, DIGEST changes the response only; answered OK, its next state is the one of O19. -/
theorem digestLeavesTheLiveEngine : Obligations.DigestLeavesTheLiveEngine := by
  intro s t h
  rcases execDigest_next h with ⟨hE, rfl⟩ | ⟨hE, c, hbody, -⟩
  · exact ⟨⟨rfl, rfl, rfl, rfl⟩, rfl, rfl, rfl, [], by simp, by simp, fun _ => rfl, by simp [hE]⟩
  · obtain ⟨v, hv⟩ := holdsBytes_of_padAndFinish hbody
    cases h.symm.trans (digestCompressesTheFinalBlocks s v hv hE)
    exact ⟨⟨rfl, rfl, rfl, rfl⟩, rfl, rfl, rfl, eventsOf .snapshot (finalBlocks v s.LEN), rfl,
      fun _ he => side_of_mem_eventsOf he, by simp [hE],
      fun _ => by simpa [eventsOf] using length_finalBlocks v s.LEN⟩

/-! RESET (R88). -/

/-- With `FILL = 0` no cell of `BUF` is valid (10_state.md R13). -/
theorem specifiedCell_of_fill_zero {s : State} (h : s.FILL = 0) (a : Nat) : specifiedCell s a = none := by
  simp [specifiedCell, h]

/-- Settles O13: RESET initialises the registers and responds OK. -/
theorem resetRestoresFreshState : Obligations.ResetRestoresFreshState := fun s =>
  ⟨respond .ok (initialise s), execReset_eq s, ⟨rfl, rfl, rfl⟩, initialise_H s, initialise_FILL s, initialise_LEN s,
    initialise_ERR s, specifiedCell_of_fill_zero (initialise_FILL s), ⟨rfl, rfl, rfl⟩⟩

end Sys2Proof.Proofs
end

section
/-! SUPPORT. The exceptions of 60_exceptions.md R104 to R106: what taking one answers and leaves unchanged, the commands that
raise one, and why the decoder refuses an illegal word. -/

open Sys2Proof Sys2Proof.Machine Sys2Proof.Laws

namespace Sys2Proof.Proofs

/-! Taking an exception (R102, R111): its response, and no effect on the data registers or on what the host presents. -/

theorem answered_raiseException (x : Exception) (s : State) :
    Answered (responseCode (exceptionResponse x)) (raiseException x s) where
  atRest := raiseException_busy x s
  present := raiseException_respValid x s
  resp := raiseException_resp x s

theorem sameData_raiseException (x : Exception) (s : State) : SameData s (raiseException x s) where
  chain := raiseException_H x s
  buf := raiseException_BUF x s
  fill := raiseException_FILL x s
  len := raiseException_LEN x s

theorem nothingTaken_raiseException (x : Exception) (s : State) : NothingTaken s (raiseException x s) where
  host := raiseException_host x s
  din := raiseException_din x s
  trace := raiseException_trace x s

/-! The commands that raise one: the failed state is checked before the counter (42_engine_commands.md R86). -/

theorem exec_write_of_failed {s : State} (hE : s.ERR = true) (n : Nat) :
    exec (.write n) s = .next (raiseException .failed s) := by
  rw [exec, execWrite, if_pos hE]

theorem exec_write_of_overflow {s : State} {n : Nat} (hE : s.ERR = false) (hn : 2 ^ 64 ≤ s.LEN.toNat + 8 * n) :
    exec (.write n) s = .next (raiseException .overflowError s) := by
  have hover : counterOverflows s.LEN n = true := decide_eq_true hn
  rw [exec, execWrite, if_neg (Bool.eq_false_iff.1 hE), if_pos hover]

theorem exec_digest_of_failed {s : State} (hE : s.ERR = true) : exec .digest s = .next (raiseException .failed s) := by
  rw [exec, execDigest, if_pos hE]

/-- Settles O16: the overflow check raises OverflowError, which changes `ERR` only. -/
theorem overflowRejectsTheWholeWrite : Obligations.OverflowRejectsTheWholeWrite := fun s _ hE hn =>
  ⟨raiseException .overflowError s, exec_write_of_overflow hE hn, answered_raiseException .overflowError s,
    raiseException_ERR .overflowError s, sameData_raiseException .overflowError s,
    nothingTaken_raiseException .overflowError s⟩

/-- Settles O18: WRITE and DIGEST raise Failed, which leaves `ERR` set; RESET does not look at `ERR`. -/
theorem failedStateRefusesDataCommands : Obligations.FailedStateRefusesDataCommands := by
  intro s hE
  have hrefused : Answered 3 (raiseException .failed s) ∧ SameData s (raiseException .failed s) ∧
      (raiseException .failed s).ERR = true ∧ NothingTaken s (raiseException .failed s) :=
    ⟨answered_raiseException .failed s, sameData_raiseException .failed s, (raiseException_ERR .failed s).trans hE,
      nothingTaken_raiseException .failed s⟩
  exact ⟨fun n => ⟨_, exec_write_of_failed hE n, hrefused⟩, ⟨_, exec_digest_of_failed hE, hrefused⟩,
    ⟨_, execReset_eq s, ⟨rfl, rfl, rfl⟩, initialise_ERR s⟩⟩

/-! An illegal word (30_encoding.md R48) selects no row, so the decoder refuses it and the step raises IllegalCommand. -/

/-- A row whose mask keeps `OP` fixes it. -/
theorem opField_of_selects {r : OpcodeRow} {c : CommandWord} (hmask : opField r.mask = BitVec.allOnes 8)
    (h : r.selects c = true) : opField c = opField r.pattern := by
  calc opField c = opField c &&& opField r.mask := by rw [hmask, BitVec.and_allOnes]
    _ = opField (c &&& r.mask) := BitVec.extractLsb'_and.symm
    _ = opField r.pattern := by rw [selects_iff.1 h]

/-- A row whose mask keeps `LEN64` fixes it. -/
theorem len64Field_of_selects {r : OpcodeRow} {c : CommandWord} (hmask : len64Field r.mask = BitVec.allOnes 64)
    (h : r.selects c = true) : len64Field c = len64Field r.pattern := by
  calc len64Field c = len64Field c &&& len64Field r.mask := by rw [hmask, BitVec.and_allOnes]
    _ = len64Field (c &&& r.mask) := BitVec.extractLsb'_and.symm
    _ = len64Field r.pattern := by rw [selects_iff.1 h]

theorem not_illegalWord_of_decodeWord_ok {c : CommandWord} {i : Instr} (h : decodeWord c = .ok i) : ¬ IllegalWord c := by
  rcases (decodeWord_ok_iff c i).1 h with ⟨hsel, -⟩ | ⟨hsel, -⟩ | ⟨hsel, -⟩
  · have hop : opField c = 0x01 := opField_of_selects (by decide) hsel
    have hlen : len64Field c = 0 := len64Field_of_selects (by decide) hsel
    simp [IllegalWord, hop, hlen]
  · have hop : opField c = 0x02 := opField_of_selects (by decide) hsel
    simp [IllegalWord, hop]
  · have hop : opField c = 0x03 := opField_of_selects (by decide) hsel
    have hlen : len64Field c = 0 := len64Field_of_selects (by decide) hsel
    simp [IllegalWord, hop, hlen]

theorem executeWord_of_illegalWord {w : CommandWord} (hw : IllegalWord w) (s : State) :
    executeWord w s = .next (raiseException .illegalCommand s) := by
  rw [executeWord]
  split
  next i hdecode => exact absurd hw (not_illegalWord_of_decodeWord_ok hdecode)
  next => rfl

/-- With no WRITE in progress a step executes the command word presented first, after accepting it. -/
theorem step_of_cmd {s : State} {w : CommandWord} {rest : List HostEvent} (hbusy : s.busy = none)
    (hhost : s.host = .cmd w :: rest) : step s = executeWord w (acceptCommand rest s) := by
  rw [step, hbusy, hhost]

/-- Settles O8: the word is accepted, which takes it from the host, and raises IllegalCommand, which changes nothing else. -/
theorem illegalWordAnsweredWithoutEffect : Obligations.IllegalWordAnsweredWithoutEffect := by
  intro s w rest hbusy hhost hw
  obtain ⟨hH, hBUF, hFILL, hLEN⟩ := sameData_raiseException .illegalCommand (acceptCommand rest s)
  obtain ⟨hrest, hdin, htrace⟩ := nothingTaken_raiseException .illegalCommand (acceptCommand rest s)
  exact ⟨_, (step_of_cmd hbusy hhost).trans (executeWord_of_illegalWord hw _), answered_raiseException .illegalCommand _,
    ⟨hH, hBUF, hFILL, hLEN⟩, raiseException_ERR .illegalCommand _, hrest, hdin, htrace⟩

end Sys2Proof.Proofs
end

section
/-! SUPPORT. Encoding and decoding (30_encoding.md R42 to R48): a word is its two fields, a row of the opcode map fixes one or
both of them, and so the decoder answers exactly the instruction whose word it is given. -/

open Sys2Proof Sys2Proof.Machine Sys2Proof.Laws

namespace Sys2Proof.Proofs

/-! A word is its fields `OP` and `LEN64` (R42). -/

theorem opField_append_len64Field (c : CommandWord) : opField c ++ len64Field c = c :=
  BitVec.extractLsb'_append_extractLsb'_eq_extractLsb' rfl |>.trans BitVec.extractLsb'_eq_self

theorem word_eq_iff_fields {c d : CommandWord} : c = d ↔ opField c = opField d ∧ len64Field c = len64Field d := by
  constructor
  · rintro rfl
    exact ⟨rfl, rfl⟩
  · rintro ⟨hop, hlen⟩
    rw [← opField_append_len64Field c, hop, hlen, opField_append_len64Field]

theorem encode_eq_iff_fields {i : Instr} {c : CommandWord} :
    encode i = c ↔ opField c = i.opcode ∧ len64Field c = i.len64 := by
  rw [eq_comm, word_eq_iff_fields, encode, opField_append, len64Field_append]

/-! The rows of the opcode map in terms of the fields (R44). -/

theorem selects_iff_fields {r : OpcodeRow} {c : CommandWord} :
    r.selects c = true ↔ opField c &&& opField r.mask = opField r.pattern ∧
      len64Field c &&& len64Field r.mask = len64Field r.pattern := by
  rw [selects_iff, word_eq_iff_fields, opField, opField, len64Field, len64Field, BitVec.extractLsb'_and,
    BitVec.extractLsb'_and]
  rfl

/-- A row whose mask keeps the whole word selects the one word of its two fields. -/
theorem selects_iff_of_full_mask {r : OpcodeRow} {c : CommandWord} (hop : opField r.mask = BitVec.allOnes 8)
    (hlen : len64Field r.mask = BitVec.allOnes 64) :
    r.selects c = true ↔ opField c = opField r.pattern ∧ len64Field c = len64Field r.pattern := by
  rw [selects_iff_fields, hop, hlen, BitVec.and_allOnes, BitVec.and_allOnes]

theorem resetRow_selects_iff {c : CommandWord} : resetRow.selects c = true ↔ opField c = 0x01 ∧ len64Field c = 0 :=
  selects_iff_of_full_mask (by decide) (by decide)

theorem digestRow_selects_iff {c : CommandWord} : digestRow.selects c = true ↔ opField c = 0x03 ∧ len64Field c = 0 :=
  selects_iff_of_full_mask (by decide) (by decide)

theorem writeRow_selects_iff {c : CommandWord} : writeRow.selects c = true ↔ opField c = 0x02 := by
  have hop : opField writeRow.mask = BitVec.allOnes 8 := by decide
  have hlen : len64Field writeRow.mask = 0#64 := by decide
  rw [selects_iff_fields, hop, hlen, BitVec.and_allOnes, BitVec.and_zero]
  exact and_iff_left (by decide)

/-! The decoder and the encoder. -/

theorem decodeWord_of_opField_write {c : CommandWord} (h : opField c = 0x02) :
    decodeWord c = .ok (.write (len64Field c).toNat) :=
  (decodeWord_eq_write_iff c _).2 ⟨writeRow_selects_iff.2 h, rfl⟩

theorem opField_of_decodeWord_write {c : CommandWord} {n : Nat} (h : decodeWord c = .ok (.write n)) :
    opField c = 0x02 ∧ n = (len64Field c).toNat := by
  rwa [decodeWord_eq_write_iff, writeRow_selects_iff] at h

/-- The decoder reads `i` from a word exactly when the word is the one of `i`. -/
theorem decodeWord_ok_iff_encode {c : CommandWord} {i : Instr} :
    decodeWord c = .ok i ↔ i.wf = true ∧ encode i = c := by
  rw [encode_eq_iff_fields]
  cases i with
  | reset => rw [decodeWord_eq_reset_iff, resetRow_selects_iff]; simp [Instr.wf, Instr.opcode, Instr.len64]
  | digest => rw [decodeWord_eq_digest_iff, digestRow_selects_iff]; simp [Instr.wf, Instr.opcode, Instr.len64]
  | write n =>
    have hlen : n = (len64Field c).toNat ↔ n < 2 ^ 64 ∧ len64Field c = BitVec.ofNat 64 n := by
      constructor
      · rintro rfl
        exact ⟨(len64Field c).isLt, (by rw [BitVec.ofNat_toNat, BitVec.setWidth_eq])⟩
      · rintro ⟨hn, h⟩
        rw [h, BitVec.toNat_ofNat, Nat.mod_eq_of_lt hn]
    rw [decodeWord_eq_write_iff, writeRow_selects_iff, hlen]
    simp only [Instr.wf, Instr.opcode, Instr.len64, decide_eq_true_eq]
    exact and_left_comm

/-- Settles O1: the word of a well-formed instruction decodes to it. -/
theorem decodeInvertsEncode : Obligations.DecodeInvertsEncode := fun _ hwf => decodeWord_ok_iff_encode.2 ⟨hwf, rfl⟩

/-- Settles O2: a word that decodes to an instruction is its word. -/
theorem encodeInvertsDecode : Obligations.EncodeInvertsDecode := fun _ _ h => decodeWord_ok_iff_encode.1 h

/-- Settles O5: a word that selects no row has an opcode outside the map, or an operand where none is allowed. -/
theorem illegalWordsAreThoseListed : Obligations.IllegalWordsAreThoseListed := by
  intro c
  constructor
  · intro hc
    cases hd : decodeWord c with
    | ok i => exact absurd hc (not_illegalWord_of_decodeWord_ok hd)
    | error e => exact ⟨e, rfl⟩
  · rintro ⟨e, he⟩
    have hno : ∀ i, decodeWord c ≠ .ok i := fun i hi => by cases he.symm.trans hi
    have hreset : ¬ (opField c = 0x01 ∧ len64Field c = 0) := fun h =>
      hno _ ((decodeWord_eq_reset_iff c).2 (resetRow_selects_iff.2 h))
    have hwrite : opField c ≠ 0x02 := fun h => hno _ (decodeWord_of_opField_write h)
    have hdigest : ¬ (opField c = 0x03 ∧ len64Field c = 0) := fun h =>
      hno _ ((decodeWord_eq_digest_iff c).2 (digestRow_selects_iff.2 h))
    rw [IllegalWord]
    by_cases hlen : len64Field c = 0
    · have h1 : opField c ≠ 0x01 := fun h => hreset ⟨h, hlen⟩
      have h3 : opField c ≠ 0x03 := fun h => hdigest ⟨h, hlen⟩
      bv_omega
    · by_cases hop : opField c = 0x01 ∨ opField c = 0x03
      · exact .inr (.inr ⟨hop, hlen⟩)
      · bv_omega

/-- Settles O6, by running the decoder on the written words. -/
theorem writtenWordsDecode : Obligations.WrittenWordsDecode := by
  refine ⟨?_, ?_, ?_, ?_, ?_, ?_⟩ <;> rfl

/-! Byte order (00_scope.md R9; 20_memory.md R26, R28). -/

/-- Sequences of one length are determined by their number: each byte can be read back from it. -/
theorem beNat_injective {D E : List Byte} (hlen : D.length = E.length) (h : beNat D = beNat E) : D = E := by
  refine List.ext_getElem hlen fun k hD hE => BitVec.eq_of_toNat_eq ?_
  rw [← beNat_div_mod hD, ← beNat_div_mod hE, h, hlen]

theorem be32_eq_ofNat_beNat (b0 b1 b2 b3 : Byte) : be32 b0 b1 b2 b3 = BitVec.ofNat 32 (beNat [b0, b1, b2, b3]) := by
  refine congrArg (BitVec.ofNat 32) ?_
  simp only [beNat, List.foldl_cons, List.foldl_nil]
  omega

theorem toNat_be32 (b0 b1 b2 b3 : Byte) : (be32 b0 b1 b2 b3).toNat = beNat [b0, b1, b2, b3] := by
  rw [be32_eq_ofNat_beNat, BitVec.toNat_ofNat, Nat.mod_eq_of_lt]
  simpa using beNat_lt [b0, b1, b2, b3]

theorem beNat_be64Bytes (v : BitVec 64) : beNat (be64Bytes v) = v.toNat := by
  have hv : v.toNat < 2 ^ 64 := v.isLt
  simp only [beNat, be64Bytes, List.foldl_cons, List.foldl_nil, BitVec.extractLsb'_toNat, Nat.shiftRight_eq_div_pow]
  omega

/-- Settles O33: a word and its four bytes are the same number in base 256, and so are a length and its eight. -/
theorem byteOrderRoundTrips : Obligations.ByteOrderRoundTrips := by
  refine ⟨fun w b0 b1 b2 b3 => ?_, fun v => ⟨beNat_be64Bytes v, length_be64Bytes v⟩⟩
  rw [← BitVec.toNat_inj, toNat_be32, ← beNat_be32Bytes, eq_comm]
  exact ⟨fun h => by rw [h], beNat_injective rfl⟩

/-! The nine bytes of a command (R42). -/

theorem length_encodeBytes (i : Instr) : (encodeBytes i).length = 9 := rfl

theorem wordOfBytes_encodeBytes (i : Instr) : wordOfBytes (encodeBytes i) = encode i := by
  have hnum : beNat (encodeBytes i) = (encode i).toNat := by
    calc beNat ([i.opcode] ++ be64Bytes i.len64)
        = i.opcode.toNat * 2 ^ 64 + i.len64.toNat := by
          rw [beNat_append, beNat_be64Bytes, length_be64Bytes]; simp [beNat]
      _ = (encode i).toNat := (toNat_append_eq i.opcode i.len64).symm
  rw [wordOfBytes, hnum, BitVec.ofNat_toNat, BitVec.setWidth_eq]

/-- Settles O3: the nine bytes are the word in base 256, and what follows them is not looked at. -/
theorem nineBytesDecodeToTheirCommand : Obligations.NineBytesDecodeToTheirCommand := by
  intro i rest hwf
  have htake : (encodeBytes i ++ rest).take 9 = encodeBytes i := List.take_left' (length_encodeBytes i)
  have hdrop : (encodeBytes i ++ rest).drop 9 = rest := List.drop_left' (length_encodeBytes i)
  have hlong : ¬ (encodeBytes i ++ rest).length < 9 := by rw [List.length_append, length_encodeBytes]; omega
  refine ⟨length_encodeBytes i, ?_⟩
  rw [decodeBytes, if_neg hlong, htake, hdrop, wordOfBytes_encodeBytes, decodeInvertsEncode i hwf]

end Sys2Proof.Proofs
end

section
/-! SUPPORT. The step, one equation per thing the host can present (42_engine_commands.md R85; 70_reset_and_hazards.md R118 to
R123), what `rst` leaves, and the payload a WRITE takes (30_encoding.md R41, R49). -/

open Sys2Proof Sys2Proof.Machine Sys2Proof.Laws

namespace Sys2Proof.Proofs

/-! The step. -/

theorem step_of_rst {s : State} {rest : List HostEvent} (hhost : s.host = .rst :: rest) :
    step s = .next (newEvent { s with host := rest }) := by
  cases hbusy : s.busy with
  | none => rw [step, hbusy, hhost]
  | some p => rw [step, hbusy, hhost]

theorem step_of_busy {s : State} {p : Pending} (hbusy : s.busy = some p) (hhost : ∀ rest, s.host ≠ .rst :: rest) :
    step s = receivePayload p s := by
  rw [step, hbusy]
  split
  next rest _ h => exact absurd h (hhost rest)
  next hq _ => cases hq; rfl
  all_goals contradiction

theorem step_of_nothing {s : State} (hbusy : s.busy = none) (hhost : s.host = []) : step s = .next s := by
  rw [step, hbusy, hhost]

theorem step_of_cmdCut {s : State} {w : CommandWord} {k : Nat} {rest : List HostEvent} (hbusy : s.busy = none)
    (hhost : s.host = .cmdCut w k :: rest) : step s = .next (cutCommand w k rest s) := by
  rw [step, hbusy, hhost]

/-- Settles O7: the word presented first is accepted and executed, and executing a legal word runs its command. -/
theorem stepRunsDecodedCommand : Obligations.StepRunsDecodedCommand := by
  intro s w rest i hbusy hhost hdecode
  rw [step_of_cmd hbusy hhost, executeWord, hdecode]

theorem step_of_illegalWord {s : State} {w : CommandWord} {rest : List HostEvent} (hbusy : s.busy = none)
    (hhost : s.host = .cmd w :: rest) (hw : IllegalWord w) :
    step s = .next (raiseException .illegalCommand (acceptCommand rest s)) :=
  (step_of_cmd hbusy hhost).trans (executeWord_of_illegalWord hw _)

theorem illegalWord_of_decodeWord_error {w : CommandWord} {e : DecodeError} (h : decodeWord w = .error e) :
    IllegalWord w :=
  (illegalWordsAreThoseListed w).2 ⟨e, h⟩

/-! What `rst` leaves (R87, R120). -/

theorem fresh_newEvent (s : State) : Fresh s (newEvent s) where
  chain := newEvent_H s
  fill := newEvent_FILL s
  len := newEvent_LEN s
  err := newEvent_ERR s
  atRest := newEvent_busy s
  silent := newEvent_respValid s
  buf := specifiedCell_of_fill_zero (newEvent_FILL s)
  trace := ⟨[], (List.append_nil _).symm⟩

/-- Settles O10: with `rst` next the step is the event NEW, whether or not a WRITE waits. -/
theorem rstLeavesTheFreshState : Obligations.RstLeavesTheFreshState := by
  intro s rest hhost
  obtain ⟨hH, hFILL, hLEN, hERR, hbusy, hvalid, hbuf, htrace⟩ := fresh_newEvent { s with host := rest }
  exact ⟨_, step_of_rst hhost, ⟨hH, hFILL, hLEN, hERR, hbusy, hvalid, hbuf, htrace⟩, newEvent_host _, newEvent_din _, rfl,
    fun _ => newEvent_trace _⟩

/-- A WRITE that passes its checks is owed its length. -/
theorem payloadOwed_of_write {w : CommandWord} {s : State} (hop : opField w = 0x02) (hERR : s.ERR = false)
    (hover : counterOverflows s.LEN (len64Field w).toNat = false) : payloadOwed w s = (len64Field w).toNat := by
  simp [payloadOwed, decodeWord_of_opField_write hop, hERR, hover]

/-- Every other word, and a WRITE that is refused, is owed nothing. -/
theorem payloadOwed_eq_zero {w : CommandWord} {s : State}
    (h : opField w ≠ 0x02 ∨ s.ERR = true ∨ counterOverflows s.LEN (len64Field w).toNat = true) : payloadOwed w s = 0 := by
  rw [payloadOwed]
  split
  next n hdecode =>
    obtain ⟨hop, rfl⟩ := opField_of_decodeWord_write hdecode
    have hrefused : (s.ERR || counterOverflows s.LEN (len64Field w).toNat) = true :=
      (Bool.or_eq_true_iff ..).2 (h.resolve_left (not_not_intro hop))
    rw [if_pos hrefused]
  all_goals rfl

theorem counterOverflows_eq_true_iff {LEN : BitVec 64} {n : Nat} :
    counterOverflows LEN n = true ↔ 2 ^ 64 ≤ LEN.toNat + 8 * n := decide_eq_true_iff

theorem counterOverflows_eq_false_iff {LEN : BitVec 64} {n : Nat} :
    counterOverflows LEN n = false ↔ LEN.toNat + 8 * n < 2 ^ 64 := by
  rw [← Bool.not_eq_true, counterOverflows_eq_true_iff, Nat.not_le]

/-- Settles O11: the command cut short is the event NEW on what is left of `din`. -/
theorem rstDuringCommandAbandonsIt : Obligations.RstDuringCommandAbandonsIt := by
  intro s w k rest hbusy hhost
  obtain ⟨hH, hFILL, hLEN, hERR, hrest, hvalid, hbuf, htrace⟩ :=
    fresh_newEvent { s with host := rest, din := s.din.drop (min k (payloadOwed w s)) }
  refine ⟨_, step_of_cmdCut hbusy hhost, ⟨hH, hFILL, hLEN, hERR, hrest, hvalid, hbuf, htrace⟩,
    cutCommand_host w k rest s, fun h => ?_, fun hop hE hn => ?_⟩
  · rw [← counterOverflows_eq_true_iff] at h
    rw [cutCommand_din, payloadOwed_eq_zero h, Nat.min_zero, List.drop_zero]
  · rw [cutCommand_din, payloadOwed_of_write hop hE (counterOverflows_eq_false_iff.2 hn)]

/-! The payload a WRITE takes. -/

section Payload

variable {p : Pending} {s : State}

/-- The bytes held after taking what stands on `din` are the first ones of those held and those offered. -/
theorem taken_takePayload (hp : p.taken.length ≤ p.n) : (takePayload p s).taken = (p.taken ++ s.din).take p.n := by
  rw [List.take_append, List.take_of_length_le hp]
  rfl

theorem length_taken_eq_iff (hp : p.taken.length ≤ p.n) :
    (takePayload p s).taken.length = p.n ↔ p.n ≤ p.taken.length + s.din.length := by
  rw [taken_takePayload hp, List.length_take, List.length_append, min_eq_left_iff]

theorem receivePayload_of_enough (hp : p.taken.length ≤ p.n) (h : p.n ≤ p.taken.length + s.din.length) :
    receivePayload p s =
      completeWrite p.n ((p.taken ++ s.din).take p.n) { s with din := s.din.drop (p.n - p.taken.length) } := by
  rw [receivePayload, if_pos ((length_taken_eq_iff hp).2 h), taken_takePayload hp]
  rfl

theorem receivePayload_of_short (h : p.taken.length + s.din.length < p.n) :
    receivePayload p s = .next (withoutResponse { s with busy := some ⟨p.n, p.taken ++ s.din⟩, din := [] }) := by
  have hp : p.taken.length ≤ p.n := by omega
  have htaken : takePayload p s = ⟨p.n, p.taken ++ s.din⟩ := by
    rw [← List.take_of_length_le (l := p.taken ++ s.din) (i := p.n) (by rw [List.length_append]; omega),
      ← taken_takePayload hp]
    rfl
  have hleave : leavePayload p s = [] := List.drop_eq_nil_of_le (by rw [bytesDue]; omega)
  rw [receivePayload, if_neg (fun h' => absurd ((length_taken_eq_iff hp).1 h') (by omega)), htaken, hleave]

end Payload

/-- A WRITE that passes its checks receives its payload from the start. -/
theorem exec_write_of_accepted {s : State} {n : Nat} (hE : s.ERR = false) (hover : counterOverflows s.LEN n = false) :
    exec (.write n) s = receivePayload ⟨n, []⟩ s := by
  rw [exec, execWrite, if_neg (Bool.eq_false_iff.1 hE), if_neg (Bool.eq_false_iff.1 hover)]

/-! What a step leaves of what the host presents, and of `ERR`. -/

/-- Receiving payload takes no command and does not touch `ERR`; the WRITE is over exactly when it is answered. -/
theorem receivePayload_frame {p : Pending} {s t : State} (h : receivePayload p s = .next t) :
    t.host = s.host ∧ t.ERR = s.ERR ∧ ((t.busy = none ∧ t.respValid = true) ∨ ∃ q, t.busy = some q) := by
  rcases receivePayload_next h with ⟨-, h⟩ | ⟨-, rfl⟩
  · obtain ⟨c, -, rfl⟩ := completeWrite_next h
    exact ⟨rfl, rfl, .inl ⟨rfl, rfl⟩⟩
  · exact ⟨rfl, rfl, .inr ⟨_, rfl⟩⟩

/-- Settles O12: with no `rst` next, a core with a WRITE in progress only receives payload. -/
theorem busyCoreAcceptsNoCommand : Obligations.BusyCoreAcceptsNoCommand := by
  intro s t p hbusy hhost h
  obtain ⟨hhost', -, hover⟩ := receivePayload_frame ((step_of_busy hbusy hhost).symm.trans h)
  refine ⟨hhost', fun hnone => ?_⟩
  rcases hover with ⟨-, hvalid⟩ | ⟨q, hq⟩
  · exact hvalid
  · cases hnone.symm.trans hq

/-- A command that sets `ERR` is an overflowing WRITE, one that clears it is RESET. -/
theorem exec_changes_ERR {i : Instr} {s t : State} (h : exec i s = .next t) :
    (s.ERR = false → t.ERR = true → ∃ n, i = .write n ∧ 2 ^ 64 ≤ s.LEN.toNat + 8 * n) ∧
    (s.ERR = true → t.ERR = false → i = .reset) := by
  cases i with
  | reset => cases h; exact ⟨fun _ h => (by cases h), fun _ _ => rfl⟩
  | write n =>
    rcases execWrite_next h with ⟨hE, rfl⟩ | ⟨hE, hover, rfl⟩ | ⟨hE, -, hrecv⟩
    · simp [hE, exceptionErr]
    · exact ⟨fun _ _ => ⟨n, rfl, counterOverflows_eq_true_iff.1 hover⟩, by simp [hE]⟩
    · simp [(receivePayload_frame hrecv).2.1, hE]
  | digest =>
    have hERR : t.ERR = s.ERR := (digestLeavesTheLiveEngine s t h).2.1
    simp +contextual [hERR]

/-- Settles O40: by what a step can do; only a command word and `rst` can change `ERR`. -/
theorem onlyOverflowFailsAndOnlyResetRevives : Obligations.OnlyOverflowFailsAndOnlyResetRevives := by
  intro s t h
  rcases step_next h with ⟨rest, hhost, rfl⟩ | ⟨p, -, -, hrecv⟩ | ⟨-, -, rfl⟩ | ⟨w, k, rest, -, hhost, rfl⟩ |
    ⟨w, rest, i, -, hhost, hdecode, hexec⟩ | ⟨w, rest, e, -, -, -, rfl⟩
  · exact ⟨fun _ h => (by cases h), fun _ _ => ⟨rest, .inl hhost⟩⟩
  · simp +contextual [(receivePayload_frame hrecv).2.1]
  · simp +contextual
  · exact ⟨fun _ h => (by cases h), fun _ _ => ⟨rest, .inr (.inl ⟨w, k, hhost⟩)⟩⟩
  · obtain ⟨hset, hclear⟩ := exec_changes_ERR hexec
    refine ⟨fun hE hE' => ?_, fun hE hE' => ?_⟩
    · obtain ⟨n, rfl, hn⟩ := hset hE hE'
      exact ⟨w, n, rest, hhost, hdecode, hn⟩
    · obtain rfl := hclear hE hE'
      exact ⟨rest, .inr (.inr ⟨w, hhost, hdecode⟩)⟩
  · simp +contextual [exceptionErr]

end Sys2Proof.Proofs
end

section
/-! SUPPORT. WRITE (42_engine_commands.md R89, R90; 40_block_buffer.md R60, R61): what an accepted WRITE with its whole payload
does, and which cells it stores to. -/

open Sys2Proof Sys2Proof.Machine Sys2Proof.Laws

namespace Sys2Proof.Proofs

/-! The counter (R90). -/

theorem toNat_advanceCounter {LEN : BitVec 64} {n : Nat} (h : counterOverflows LEN n = false) :
    (advanceCounter LEN n).toNat = LEN.toNat + 8 * n := by
  rw [advanceCounter, BitVec.toNat_ofNat, Nat.mod_eq_of_lt (counterOverflows_eq_false_iff.1 h)]

/-- The top three bits of `n` are zero exactly when `8n` fits in 64 bits. -/
theorem extractLsb'_top_ne_zero_iff (n : BitVec 64) : n.extractLsb' 61 3 ≠ 0 ↔ 2 ^ 64 ≤ 8 * n.toNat := by
  have hn : n.toNat < 2 ^ 64 := n.isLt
  have hzero : (0 : BitVec 3).toNat = 0 := rfl
  rw [ne_eq, ← BitVec.toNat_inj, BitVec.extractLsb'_toNat, Nat.shiftRight_eq_div_pow, hzero]
  omega

theorem toNat_shiftLeft_three (n : BitVec 64) : (n <<< 3).toNat = 8 * n.toNat % 2 ^ 64 := by
  rw [BitVec.toNat_shiftLeft, Nat.shiftLeft_eq, Nat.mul_comm]

/-- The shifted operand of the hardware adder, `{n[60:0], 000}`, is `8n` without its upper bits. -/
theorem append_three_zeros_eq_shiftLeft (n : BitVec 64) : n.extractLsb' 0 61 ++ (0 : BitVec 3) = n <<< 3 := by
  refine BitVec.eq_of_toNat_eq ?_
  rw [toNat_append_eq, toNat_shiftLeft_three, BitVec.extractLsb'_toNat]
  simp only [BitVec.toNat_ofNat, BitVec.ofNat_eq_ofNat, Nat.shiftRight_zero]
  omega

/-- Bit 64 of the 65-bit sum is the carry out of the 64-bit one. -/
theorem carry_iff (x y : BitVec 64) :
    (x.zeroExtend 65 + y.zeroExtend 65).getLsbD 64 = true ↔ 2 ^ 64 ≤ x.toNat + y.toNat := by
  have hx : x.toNat < 2 ^ 64 := x.isLt
  have hy : y.toNat < 2 ^ 64 := y.isLt
  have hsum : (x.zeroExtend 65 + y.zeroExtend 65).toNat = x.toNat + y.toNat := by
    simp only [BitVec.truncate_eq_setWidth, BitVec.toNat_add, BitVec.toNat_setWidth]
    omega
  rw [BitVec.getLsbD, hsum, Nat.testBit_eq_decide_div_mod_eq, decide_eq_true_iff]
  omega

theorem counterOverflows_iff_carry (LEN n : BitVec 64) :
    counterOverflows LEN n.toNat = true ↔ n.extractLsb' 61 3 ≠ 0 ∨ 2 ^ 64 ≤ LEN.toNat + (n <<< 3).toNat := by
  rw [counterOverflows_eq_true_iff, extractLsb'_top_ne_zero_iff, toNat_shiftLeft_three]
  omega

/-- Settles O17: either `8n` alone does not fit, or its sum with `LEN` carries. -/
theorem overflowCheckIsExact : Obligations.OverflowCheckIsExact := by
  refine ⟨counterOverflows_iff_carry, fun LEN n => ?_, fun LEN N n hN => ⟨?_, fun h => ?_⟩⟩
  · rw [Bool.eq_iff_iff, counterOverflows_iff_carry, counterOverflowsHw, Bool.or_eq_true_iff, bne_iff_ne,
      append_three_zeros_eq_shiftLeft, carry_iff]
  · rw [counterOverflows_eq_true_iff]
    omega
  · have hfits := counterOverflows_eq_false_iff.1 h
    rw [toNat_advanceCounter h]
    omega

/-! What BB.INPUT stores (40_block_buffer.md R60). -/

/-- A payload that does not complete the window is appended to the valid bytes, readable or not. -/
theorem bbInput_of_short {c : Context} {bytes : List Byte} (h : c.FILL + bytes.length < 64) :
    bbInput bytes c = .ok { c with BUF := Memory.writeBytes c.BUF c.FILL bytes, FILL := c.FILL + bytes.length } := by
  have hlen : bytes.length < 64 := by omega
  rw [bbInput, if_neg (by omega)]
  split_ifs with h0 hfull
  · simp [inputWholeBlocks_ok, wholeBlocks_eq_nil hlen, remainder_eq_self hlen, Nat.mod_eq_of_lt hlen, h0]
  · omega
  · rw [storeBytes_ok_iff.2 ⟨by omega, rfl⟩]

/-- What BB.INPUT has done when it answers and the payload completed the window: the valid bytes were readable, since the
window was drained; `s` was stored above them, and then the remainder at the start of the buffer. -/
theorem bbInput_ok_of_full {c c' : Context} {bytes : List Byte} (hfull : 64 ≤ c.FILL + bytes.length)
    (h : bbInput bytes c = .ok c') :
    Readable c ∧ c.FILL ≤ 63 ∧ ∃ s r : List Byte, c.FILL + s.length ≤ 64 ∧ r.length ≤ 63 ∧
      c'.BUF = Memory.writeBytes (Memory.writeBytes c.BUF c.FILL s) 0 r := by
  have hrem (bs : List Byte) : (remainder bs).length ≤ 63 := by rw [length_remainder]; omega
  rw [bbInput] at h
  split_ifs at h with hF h0 hlen
  · cases (inputWholeBlocks_ok bytes c).symm.trans h
    exact ⟨⟨[], by rw [h0, memRead_zero_zero]⟩, by omega, [], remainder bytes, by simp [h0], hrem bytes, rfl⟩
  · split at h
    next c1 hstore =>
      obtain ⟨hs, rfl⟩ := storeBytes_ok_iff.1 hstore
      split at h
      next c2 hdrain =>
        obtain ⟨-, block, hb, rfl⟩ := bbDrain_ok_iff.1 hdrain
        cases (inputWholeBlocks_ok _ _).symm.trans h
        exact ⟨exists_memRead_of_writeBytes (by omega) hb, by omega, _, _, hs, hrem _, rfl⟩
      next => cases h
    next => cases h
  · omega

theorem bbInput_wf {c c' : Context} {bytes : List Byte} (h : bbInput bytes c = .ok c') (hwf : Memory.wf c.BUF = true) :
    Memory.wf c'.BUF = true := by
  rcases Nat.lt_or_ge (c.FILL + bytes.length) 64 with hshort | hfull
  · cases (bbInput_of_short hshort).symm.trans h
    exact wf_writeBytes hshort.le hwf
  · obtain ⟨-, -, s, r, hs, hr, hbuf⟩ := bbInput_ok_of_full hfull h
    rw [hbuf]
    exact wf_writeBytes (by omega) (wf_writeBytes hs hwf)

/-- Whatever BB.INPUT is given, `H` changes only by the blocks it records. -/
theorem bbInput_chain {c c' : Context} {bytes : List Byte} (h : bbInput bytes c = .ok c') :
    ∃ blocks, c'.H = compressAll c.H blocks ∧ c'.trace = c.trace ++ eventsOf c.side blocks := by
  rcases Nat.lt_or_ge (c.FILL + bytes.length) 64 with hshort | hfull
  · cases (bbInput_of_short hshort).symm.trans h
    exact ⟨[], rfl, (List.append_nil _).symm⟩
  · obtain ⟨⟨v, hv⟩, hF, -⟩ := bbInput_ok_of_full hfull h
    obtain ⟨c1, hin, h1⟩ := bbInput_compresses bytes hF hv
    cases hin.symm.trans h
    exact ⟨_, h1.chain, h1.trace⟩

/-! An accepted WRITE with its whole payload (R89). -/

/-- `t` is `s` after a WRITE of `n` bytes answered OK: `bytes` have gone through the buffer that held `v`, and `left` is what
remains on `din`. -/
structure WriteEffect (s : State) (n : Nat) (v bytes left : List Byte) (t : State) : Prop where
  answered : Answered 0 t
  len : t.LEN.toNat = s.LEN.toNat + 8 * n
  chain : t.H = compressAll s.H (wholeBlocks (v ++ bytes))
  fill : t.FILL.toNat = (s.FILL.toNat + n) % 64
  holds : HoldsBytes t (remainder (v ++ bytes))
  err : t.ERR = s.ERR
  host : t.host = s.host
  din : t.din = left
  trace : t.trace = s.trace ++ eventsOf .live (wholeBlocks (v ++ bytes))
  wf : Memory.wf s.BUF = true → Memory.wf t.BUF = true

theorem completeWrite_of_bbInput {n : Nat} {bytes : List Byte} {s : State} {c : Context}
    (h : bbInput bytes (liveContext s) = .ok c) :
    completeWrite n bytes s = .next (respond .ok (commitLive c { s with LEN := advanceCounter s.LEN n })) := by
  rw [completeWrite, h]

theorem completeWrite_effect {n : Nat} {v bytes : List Byte} {s : State} (hv : HoldsBytes s v)
    (hover : counterOverflows s.LEN n = false) (hn : bytes.length = n) :
    ∃ t, completeWrite n bytes s = .next t ∧ WriteEffect s n v bytes s.din t := by
  obtain ⟨hF, hread⟩ := hv
  obtain ⟨c, hin, hside, hchain, htrace, hfill, hvalid⟩ :=
    bbInput_compresses (c := liveContext s) bytes (Nat.le_of_lt_succ hF) hread
  have hc : c.FILL = (s.FILL.toNat + n) % 64 := by
    rw [hfill, List.length_append, memRead_length hread, hn]
  have hreg : (BitVec.ofNat 7 c.FILL).toNat = c.FILL := by
    rw [BitVec.toNat_ofNat]
    omega
  refine ⟨_, completeWrite_of_bbInput hin, ⟨rfl, rfl, rfl⟩, toNat_advanceCounter hover, hchain, hreg.trans hc,
    ⟨?_, ?_⟩, rfl, rfl, rfl, htrace, bbInput_wf hin⟩
  · change (BitVec.ofNat 7 c.FILL).toNat < 64
    omega
  · change memRead c.BUF 0 (BitVec.ofNat 7 c.FILL).toNat = _
    rw [hreg]
    exact hvalid

/-- A WRITE that has passed its checks and has taken no more than it is owed: what a command in progress and the command just
accepted have in common. -/
structure Accepted (s : State) (p : Pending) : Prop where
  takenLe : p.taken.length ≤ p.n
  err : s.ERR = false
  fits : counterOverflows s.LEN p.n = false

theorem Accepted.of_pendingOk {s : State} {p : Pending} (h : PendingOk s p) : Accepted s p := by
  obtain ⟨htaken, hE, hover⟩ := h
  exact ⟨htaken.le, hE, hover⟩

theorem Accepted.of_checks {s : State} {n : Nat} (hE : s.ERR = false) (hover : counterOverflows s.LEN n = false) :
    Accepted s ⟨n, []⟩ :=
  ⟨Nat.zero_le n, hE, hover⟩

/-- An accepted WRITE whose payload is there completes on the first bytes of those it holds and those offered. -/
theorem receivePayload_effect {s : State} {p : Pending} {v : List Byte} (hp : Accepted s p) (hv : HoldsBytes s v)
    (h : p.n ≤ p.taken.length + s.din.length) :
    ∃ t, receivePayload p s = .next t ∧
      WriteEffect s p.n v ((p.taken ++ s.din).take p.n) (s.din.drop (p.n - p.taken.length)) t := by
  have hn : ((p.taken ++ s.din).take p.n).length = p.n := by
    rw [List.length_take, List.length_append, min_eq_left h]
  obtain ⟨t, hstep, ⟨hans, hlen, hchain, hfill, hholds, herr, hhost, hdin, htrace, hwf⟩⟩ :=
    completeWrite_effect (s := { s with din := s.din.drop (p.n - p.taken.length) }) hv hp.fits hn
  exact ⟨t, (receivePayload_of_enough hp.takenLe h).trans hstep,
    ⟨hans, hlen, hchain, hfill, hholds, herr, hhost, hdin, htrace, hwf⟩⟩

theorem exec_write_effect {s : State} {n : Nat} {v : List Byte} (hv : HoldsBytes s v) (hE : s.ERR = false)
    (hover : counterOverflows s.LEN n = false) (h : n ≤ s.din.length) :
    ∃ t, exec (.write n) s = .next t ∧ WriteEffect s n v (s.din.take n) (s.din.drop n) t := by
  rw [exec_write_of_accepted hE hover]
  exact receivePayload_effect (.of_checks hE hover) hv (h.trans (Nat.le_add_left ..))

/-- Settles O14: the payload goes through the buffer behind the valid bytes. -/
theorem writeAbsorbsItsPayload : Obligations.WriteAbsorbsItsPayload := by
  intro s n v hv hE hn hdin
  obtain ⟨t, hexec, h⟩ := exec_write_effect hv hE (counterOverflows_eq_false_iff.2 hn) hdin
  exact ⟨t, hexec, h.answered, h.len, h.chain, h.fill, h.holds, h.err.trans hE, h.host, h.din, h.trace⟩

/-! A WRITE whose payload is short (70_reset_and_hazards.md R123; log entry 3). -/

theorem exec_write_of_short {s : State} {n : Nat} (hE : s.ERR = false) (hover : counterOverflows s.LEN n = false)
    (h : s.din.length < n) :
    exec (.write n) s = .next (withoutResponse { s with busy := some ⟨n, s.din⟩, din := [] }) := by
  rw [exec_write_of_accepted hE hover]
  exact receivePayload_of_short (p := ⟨n, []⟩) ((Nat.zero_add _).trans_lt h)

theorem sameValidData_of_sameData {s t : State} (h : SameData s t) : SameValidData s t where
  chain := h.chain
  cells a := by rw [specifiedCell, specifiedCell, h.fill, h.buf]
  fill := h.fill
  len := h.len

/-- A waiting WRITE has changed no data register. -/
theorem sameData_wait (s : State) (p : Pending) (left : List Byte) :
    SameData s (withoutResponse { s with busy := some p, din := left }) := ⟨rfl, rfl, rfl, rfl⟩

/-- The step of a WRITE that waits on. -/
theorem receivePayload_waits {s : State} {p : Pending} (hE : s.ERR = false)
    (h : p.taken.length + s.din.length < p.n) :
    ∃ t, receivePayload p s = .next t ∧ t.busy = some ⟨p.n, p.taken ++ s.din⟩ ∧ t.din = [] ∧ t.respValid = false ∧
      stBusy t = true ∧ dinReady t = true ∧ SameValidData s t ∧ t.ERR = false ∧ t.host = s.host ∧ t.trace = s.trace := by
  have hready : (p.taken ++ s.din).length < p.n := List.length_append.trans_lt h
  exact ⟨_, receivePayload_of_short h, rfl, rfl, rfl, rfl, decide_eq_true hready, sameValidData_of_sameData (sameData_wait s _ _), hE,
    rfl, rfl⟩

/-- Settles O22: the WRITE has passed its checks and waits with what was offered. -/
theorem shortPayloadWaits : Obligations.ShortPayloadWaits := by
  intro s n hE hn hdin
  rw [exec_write_of_accepted hE (counterOverflows_eq_false_iff.2 hn)]
  exact receivePayload_waits (p := ⟨n, []⟩) hE ((Nat.zero_add _).trans_lt hdin)

/-- Settles O48: a WRITE in progress passed its checks, so it completes or waits as its payload is there or not. -/
theorem waitingWriteTakesItsPayload : Obligations.WaitingWriteTakesItsPayload := by
  intro s p hs hbusy hhost
  have hp : Accepted s p := .of_pendingOk (hs.pendingOk p hbusy)
  rw [step_of_busy hbusy hhost]
  refine ⟨fun henough v hv => ?_, fun hshort => receivePayload_waits hp.err hshort⟩
  obtain ⟨t, hstep, h⟩ := receivePayload_effect hp hv henough
  exact ⟨t, hstep, h.answered, h.len, h.chain, h.fill, h.holds, h.err.trans hp.err, h.host, h.din, h.trace⟩

/-! Two runs of one WRITE. -/

theorem specifiedCell_of_holdsBytes {s : State} {v : List Byte} (h : HoldsBytes s v) (a : Nat) :
    specifiedCell s a = v[a]? := by
  obtain ⟨-, hlen, hcell⟩ := memRead_ok_iff.1 h.2
  rw [specifiedCell]
  split_ifs with ha
  · rw [← hcell a ha, Nat.zero_add]
  · rw [List.getElem?_eq_none (by omega)]

/-- The effect of a WRITE fixes every specified part of the data. -/
theorem WriteEffect.sameValidData {s s' t t' : State} {n : Nat} {v bytes left left' : List Byte}
    (h : WriteEffect s n v bytes left t) (h' : WriteEffect s' n v bytes left' t') (hs : SameData s s') : SameValidData t t' where
  chain := by rw [h'.chain, h.chain, hs.chain]
  cells a := by rw [specifiedCell_of_holdsBytes h'.holds, specifiedCell_of_holdsBytes h.holds]
  fill := BitVec.eq_of_toNat_eq (by rw [h'.fill, h.fill, hs.fill])
  len := BitVec.eq_of_toNat_eq (by rw [h'.len, h.len, hs.len])

/-- Settles O23: fed in two parts or at once, the WRITE completes on the same bytes. -/
theorem waitingWriteCompletesWhenFed : Obligations.WaitingWriteCompletesWhenFed := by
  intro s t n v more hv hE hn hshort hmore hhost hexec
  have hover := counterOverflows_eq_false_iff.2 hn
  cases (exec_write_of_short hE hover hshort).symm.trans hexec
  obtain ⟨u, hu, h⟩ := receivePayload_effect (v := v) (p := ⟨n, s.din⟩)
    (s := { withoutResponse { s with busy := some ⟨n, s.din⟩, din := [] } with din := more }) ⟨hshort.le, hE, hover⟩ hv hmore
  obtain ⟨u', hu', h'⟩ := exec_write_effect (s := { s with din := s.din ++ more }) hv hE hover
    (hmore.trans_eq List.length_append.symm)
  have hleft : (s.din ++ more).drop n = more.drop (n - s.din.length) := by
    rw [List.drop_append, List.drop_eq_nil_of_le hshort.le, List.nil_append]
  have hstep : step { withoutResponse { s with busy := some ⟨n, s.din⟩, din := [] } with din := more } = .next u :=
    (step_of_busy (p := ⟨n, s.din⟩) rfl (by exact hhost)).trans hu
  exact ⟨u, u', hstep, hu', h.answered, h'.sameValidData h ⟨rfl, rfl, rfl, rfl⟩,
    h.err.trans h'.err.symm, h.host.trans h'.host.symm, h.din.trans (hleft.symm.trans h'.din.symm),
    h.trace.trans h'.trace.symm⟩

/-! The frame of WRITE in every case. -/

/-- What WRITE can answer, by its checks and by whether the payload is there. -/
theorem exec_write_next {s t : State} {n : Nat} (h : exec (.write n) s = .next t) :
    ((s.ERR = true ∨ counterOverflows s.LEN n = true) ∧
      ∃ x, exceptionErr x s.ERR = true ∧ t = raiseException x s) ∨
    (s.ERR = false ∧ counterOverflows s.LEN n = false ∧ s.din.length < n ∧
      t = withoutResponse { s with busy := some ⟨n, s.din⟩, din := [] }) ∨
    (s.ERR = false ∧ counterOverflows s.LEN n = false ∧ n ≤ s.din.length ∧
      ∃ c, bbInput (s.din.take n) (liveContext s) = .ok c ∧
        t = respond .ok (commitLive c { s with din := s.din.drop n, LEN := advanceCounter s.LEN n })) := by
  rcases execWrite_next h with ⟨hE, rfl⟩ | ⟨-, hover, rfl⟩ | ⟨hE, hover, hrecv⟩
  · exact .inl ⟨.inl hE, .failed, hE, rfl⟩
  · exact .inl ⟨.inr hover, .overflowError, rfl, rfl⟩
  · rcases Nat.lt_or_ge s.din.length n with hshort | henough
    · cases (exec_write_of_short hE hover hshort).symm.trans h
      exact .inr (.inl ⟨hE, hover, hshort, rfl⟩)
    · rw [receivePayload_of_enough (p := ⟨n, []⟩) (Nat.zero_le n) (henough.trans (Nat.le_add_left ..))] at hrecv
      obtain ⟨c, hin, rfl⟩ := completeWrite_next hrecv
      exact .inr (.inr ⟨hE, hover, henough, c, hin, rfl⟩)

/-- Every cell below the new `FILL` that a completed WRITE did not store to was below the old one, and is as it was. -/
theorem specifiedCell_of_not_writeStores {s : State} {n a : Nat} {c : Context} (hE : s.ERR = false)
    (hover : counterOverflows s.LEN n = false) (hdin : n ≤ s.din.length)
    (hin : bbInput (s.din.take n) (liveContext s) = .ok c) (ha : a < c.FILL) (hstores : ¬ writeStores s n a) :
    Memory.read c.BUF a = specifiedCell s a := by
  have hlen : (s.din.take n).length = n := by rw [List.length_take, min_eq_left hdin]
  rcases Nat.lt_or_ge (s.FILL.toNat + n) 64 with hshort | hfull
  · cases (bbInput_of_short (c := liveContext s) (by rw [hlen]; exact hshort)).symm.trans hin
    simp only [liveContext_FILL, hlen] at ha
    have hout : a < s.FILL.toNat := by
      by_contra hge
      exact hstores ⟨hE, hover, hdin, by rw [if_pos hshort]; omega⟩
    simp only [liveContext_BUF, liveContext_FILL, read_writeBytes]
    rw [if_neg (by omega), specifiedCell, if_pos hout]
  · obtain ⟨⟨v, hv⟩, hF, -⟩ := bbInput_ok_of_full (c := liveContext s) (by rw [hlen]; exact hfull) hin
    obtain ⟨c1, hin1, h1⟩ := bbInput_compresses (s.din.take n) hF hv
    cases hin1.symm.trans hin
    rw [h1.fill, List.length_append, memRead_length hv, hlen, liveContext_FILL] at ha
    exact absurd ⟨hE, hover, hdin, by rw [if_neg (by omega)]; exact .inr ha⟩ hstores

/-- Settles O15, by what WRITE can answer. -/
theorem writeLeavesTheRestAlone : Obligations.WriteLeavesTheRestAlone := by
  intro s t n h
  rcases exec_write_next h with ⟨hrefused, x, hx, rfl⟩ | ⟨hE, hover, hshort, rfl⟩ | ⟨hE, hover, henough, c, hin, rfl⟩
  · have hsame := sameData_raiseException x s
    refine ⟨fun a _ _ => (sameValidData_of_sameData hsame).cells a, rfl, ?_, fun _ =>
      ⟨hsame, nothingTaken_raiseException x s⟩, fun _ => ⟨sameValidData_of_sameData hsame, rfl⟩⟩
    rw [raiseException_ERR, hx, (Bool.or_eq_true_iff ..).2 hrefused]
  · have hsame : SameValidData s (withoutResponse { s with busy := some ⟨n, s.din⟩, din := [] }) :=
      sameValidData_of_sameData (sameData_wait s _ _)
    refine ⟨fun a _ _ => hsame.cells a, rfl, ?_, fun h => ?_, fun _ => ⟨hsame, rfl⟩⟩
    · simp [hover]
    · simp [hE, hover] at h
  · refine ⟨fun a ha hstores => ?_, rfl, ?_, fun h => ?_, fun h => absurd h (Nat.not_lt.2 henough)⟩
    · have ha' : a < c.FILL := ha.trans_le ((BitVec.toNat_ofNat ..).trans_le (Nat.mod_le ..))
      rw [specifiedCell, if_pos ha]
      exact specifiedCell_of_not_writeStores hE hover henough hin ha' hstores
    · simp [hover]
    · simp [hE, hover] at h

end Sys2Proof.Proofs
end

section
/-! SUPPORT. The invariant of the core (10_state.md R15, R17; 40_block_buffer.md R65): every step keeps it, and from a state that
meets it every step answers. With it the responses and the counter. -/

open Sys2Proof Sys2Proof.Machine Sys2Proof.Laws

namespace Sys2Proof.Proofs

/-! The events carry whole blocks (10_state.md R23; 41_compression.md R84). -/

theorem length_of_mem_wholeBlocks {s b : List Byte} (h : b ∈ wholeBlocks s) : b.length = 64 :=
  blocksOf_block_length (Nat.mul_div_le _ _) h

theorem length_zeros (n : Nat) : (zeros n).length = n := List.length_replicate ..

theorem length_of_mem_finalBlocks {v b : List Byte} {LEN : BitVec 64} (hv : v.length < 64)
    (h : b ∈ finalBlocks v LEN) : b.length = 64 := by
  rw [finalBlocks] at h
  split_ifs at h with hfit
  · rw [List.mem_singleton] at h
    subst h
    simp only [List.length_append, length_zeros, length_be64Bytes, List.length_singleton]
    omega
  · rw [List.mem_pair] at h
    rcases h with rfl | rfl
    · simp only [List.length_append, length_zeros, List.length_singleton]
      omega
    · rw [List.length_append, length_zeros, length_be64Bytes]

/-- A trace of 64-byte events stays one when the events of 64-byte blocks are added. -/
theorem block_lengths_append {tr : List Event} {side : Side} {bs : List (List Byte)}
    (htr : ∀ e ∈ tr, e.block.length = 64) (hbs : ∀ b ∈ bs, b.length = 64) :
    ∀ e ∈ tr ++ eventsOf side bs, e.block.length = 64 := by
  intro e he
  rcases List.mem_append.1 he with he | he
  · exact htr e he
  · obtain ⟨b, hb, rfl⟩ := List.mem_map.1 he
    exact hbs b hb

/-! What keeps the invariant. -/

/-- The registers of an engine that has been initialised meet the invariant with any buffer in canonical form. -/
theorem inv_of_initial {t : State} (hfill : t.FILL = 0) (hlen : t.LEN = 0) (hrest : t.busy = none)
    (hwf : Memory.wf t.BUF = true) (htrace : ∀ e ∈ t.trace, e.block.length = 64) : Inv t where
  bufWf := hwf
  fillAtRest := by simp [hfill]
  cellsWritten := by simp [hfill]
  lenBytes := by simp [hlen]
  fillOfLen := by simp [hfill, hlen]
  pendingOk := by simp [hrest]
  traceBlocks := htrace

/-- The invariant reads the data registers, the WRITE in progress and the trace. -/
theorem inv_of_sameData {s t : State} (h : Inv s) (hdata : SameData s t)
    (hpending : ∀ p, t.busy = some p → PendingOk t p) (htrace : ∀ e ∈ t.trace, e.block.length = 64) : Inv t where
  bufWf := by rw [hdata.buf]; exact h.bufWf
  fillAtRest := by rw [hdata.fill]; exact h.fillAtRest
  cellsWritten := by rw [hdata.fill, hdata.buf]; exact h.cellsWritten
  lenBytes := by rw [hdata.len]; exact h.lenBytes
  fillOfLen := by rw [hdata.fill, hdata.len]; exact h.fillOfLen
  pendingOk := hpending
  traceBlocks := htrace

/-- Settles O36: the state after NEW is an initialised engine with an empty buffer and an empty trace. -/
theorem resetMeetsTheInvariant : Obligations.ResetMeetsTheInvariant :=
  inv_of_initial rfl rfl rfl wf_nil (fun _ he => absurd he List.not_mem_nil)

theorem inv_newEvent {s : State} (h : Inv s) : Inv (newEvent s) :=
  inv_of_initial (newEvent_FILL s) (newEvent_LEN s) (newEvent_busy s) h.bufWf h.traceBlocks

theorem inv_cutCommand {s : State} (h : Inv s) (w : CommandWord) (k : Nat) (rest : List HostEvent) :
    Inv (cutCommand w k rest s) :=
  inv_of_initial (cutCommand_FILL ..) (cutCommand_LEN ..) (cutCommand_busy ..) h.bufWf h.traceBlocks

theorem inv_execReset {s : State} (h : Inv s) : Inv (respond .ok (initialise s)) :=
  inv_of_initial (initialise_FILL s) (initialise_LEN s) (respond_busy ..) h.bufWf h.traceBlocks

theorem inv_raiseException {s : State} (h : Inv s) (x : Exception) : Inv (raiseException x s) :=
  inv_of_sameData h (sameData_raiseException x s) (by simp) h.traceBlocks

theorem sameData_acceptCommand (rest : List HostEvent) (s : State) : SameData s (acceptCommand rest s) :=
  ⟨rfl, rfl, rfl, rfl⟩

theorem inv_acceptCommand {s : State} (h : Inv s) (hbusy : s.busy = none) (rest : List HostEvent) :
    Inv (acceptCommand rest s) :=
  inv_of_sameData h (sameData_acceptCommand rest s) (by simp [hbusy]) h.traceBlocks

theorem inv_of_writeEffect {s t : State} {n : Nat} {v bytes left : List Byte} (h : Inv s)
    (ht : WriteEffect s n v bytes left t) : Inv t where
  bufWf := ht.wf h.bufWf
  fillAtRest := Nat.le_of_lt_succ ht.holds.1
  cellsWritten a ha := by
    obtain ⟨-, hlen, hcell⟩ := memRead_ok_iff.1 ht.holds.2
    rw [← Nat.zero_add a, hcell a ha, List.getElem?_eq_getElem (by omega), Option.isSome_some]
  lenBytes := by rw [ht.len, Nat.add_mul_mod_self_left, h.lenBytes]
  fillOfLen := by rw [ht.fill, ht.len, h.fillOfLen]; omega
  pendingOk p hp := by cases ht.answered.atRest.symm.trans hp
  traceBlocks := by
    rw [ht.trace]
    exact block_lengths_append h.traceBlocks fun _ => length_of_mem_wholeBlocks

theorem exists_holdsBytes_of_inv {s : State} (h : Inv s) : ∃ v, HoldsBytes s v := by
  obtain ⟨v, hv⟩ := memRead_exists (m := s.BUF) (a := 0) (n := s.FILL.toNat) (by have := h.fillAtRest; omega)
    (fun a _ ha => h.cellsWritten a (by omega))
  exact ⟨v, Nat.lt_succ_of_le h.fillAtRest, hv⟩

theorem receivePayload_of_inv {s : State} {p : Pending} (h : Inv s) (hp : Accepted s p) :
    ∃ t, receivePayload p s = .next t ∧ Inv t := by
  rcases Nat.lt_or_ge (p.taken.length + s.din.length) p.n with hshort | henough
  · refine ⟨_, receivePayload_of_short hshort, inv_of_sameData h (sameData_wait ..) ?_ h.traceBlocks⟩
    rintro q ⟨⟩
    exact ⟨List.length_append.trans_lt hshort, hp.err, hp.fits⟩
  · obtain ⟨v, hv⟩ := exists_holdsBytes_of_inv h
    obtain ⟨t, hstep, ht⟩ := receivePayload_effect hp hv henough
    exact ⟨t, hstep, inv_of_writeEffect h ht⟩

theorem exec_of_inv {s : State} (h : Inv s) (i : Instr) : ∃ t, exec i s = .next t ∧ Inv t := by
  cases i with
  | reset => exact ⟨_, execReset_eq s, inv_execReset h⟩
  | write n =>
    by_cases hE : s.ERR = true
    · exact ⟨_, exec_write_of_failed hE n, inv_raiseException h _⟩
    by_cases hover : counterOverflows s.LEN n = true
    · rw [Bool.not_eq_true] at hE
      exact ⟨_, exec_write_of_overflow hE (counterOverflows_eq_true_iff.1 hover), inv_raiseException h _⟩
    · rw [Bool.not_eq_true] at hE hover
      rw [exec_write_of_accepted hE hover]
      exact receivePayload_of_inv h (.of_checks hE hover)
  | digest =>
    by_cases hE : s.ERR = true
    · exact ⟨_, exec_digest_of_failed hE, inv_raiseException h _⟩
    · rw [Bool.not_eq_true] at hE
      obtain ⟨v, hv⟩ := exists_holdsBytes_of_inv h
      have hlen : v.length < 64 := (memRead_length hv.2).trans_lt hv.1
      exact ⟨_, digestCompressesTheFinalBlocks s v hv hE, inv_of_sameData h ⟨rfl, rfl, rfl, rfl⟩ (by simp)
        (block_lengths_append h.traceBlocks fun _ => length_of_mem_finalBlocks hlen)⟩

/-- From a state that meets the invariant the step answers, with a state that meets it. -/
theorem step_of_inv {s : State} (h : Inv s) : ∃ t, step s = .next t ∧ Inv t := by
  by_cases hrst : ∃ rest, s.host = .rst :: rest
  · obtain ⟨rest, hhost⟩ := hrst
    exact ⟨_, step_of_rst hhost, inv_of_initial rfl rfl rfl h.bufWf h.traceBlocks⟩
  rw [not_exists] at hrst
  cases hbusy : s.busy with
  | some p =>
    rw [step_of_busy hbusy hrst]
    exact receivePayload_of_inv h (.of_pendingOk (h.pendingOk p hbusy))
  | none =>
    cases hhost : s.host with
    | nil => exact ⟨s, step_of_nothing hbusy hhost, h⟩
    | cons event rest =>
      cases event with
      | rst => exact absurd hhost (hrst rest)
      | cmdCut w k => exact ⟨_, step_of_cmdCut hbusy hhost, inv_cutCommand h w k rest⟩
      | cmd w =>
        have haccept := inv_acceptCommand h hbusy rest
        cases hdecode : decodeWord w with
        | ok i =>
          rw [stepRunsDecodedCommand s w rest i hbusy hhost hdecode]
          exact exec_of_inv haccept i
        | error e =>
          exact ⟨_, step_of_illegalWord hbusy hhost (illegalWord_of_decodeWord_error hdecode),
            inv_raiseException haccept _⟩

/-- Settles O37: the step's one answer is the state that meets the invariant. -/
theorem stepKeepsTheInvariant : Obligations.StepKeepsTheInvariant := by
  intro s t h hstep
  obtain ⟨t', hstep', ht'⟩ := step_of_inv h
  cases hstep'.symm.trans hstep
  exact ht'

/-- Settles O38: the step answers. -/
theorem invariantStateNeverStops : Obligations.InvariantStateNeverStops := fun _ h =>
  (step_of_inv h).imp fun _ => And.left

/-! The status outputs (30_encoding.md R52). -/

theorem dinReady_eq_stBusy {s : State} (h : Inv s) : dinReady s = stBusy s := by
  rw [dinReady, stBusy]
  cases hbusy : s.busy with
  | none => rfl
  | some p => exact decide_eq_true (h.pendingOk p hbusy).1

/-- Settles O43: busy, `st_fill` is a free value up to 64; at rest it is `FILL`. -/
theorem statusOutputsShowTheRegisters : Obligations.StatusOutputsShowTheRegisters := by
  intro s
  have hrest : stBusy s = false → stFill s = s.FILL := fun hbusy => by rw [stFill, hbusy]; rfl
  refine ⟨rfl, hrest, fun h => ⟨?_, fun hbusy => ?_, dinReady_eq_stBusy h⟩, rfl⟩
  · have hF := h.fillAtRest
    cases hbusy : stBusy s with
    | false => rw [hrest hbusy]; omega
    | true =>
      have hfree := (Config.freeStFill s.free).isLt
      rw [stFill, hbusy, if_pos rfl, BitVec.toNat_ofNat]
      omega
  · rw [hrest hbusy]
    exact h.fillAtRest

/-! The responses (30_encoding.md R50; 42_engine_commands.md R86). -/

theorem exec_reset_response {s t : State} (h : exec .reset s = .next t) : Answered 0 t := by
  cases h
  exact ⟨rfl, rfl, rfl⟩

theorem exec_write_response {s t : State} {n : Nat} (h : exec (.write n) s = .next t) :
    (s.ERR = true → Answered 3 t) ∧
    (s.ERR = false → 2 ^ 64 ≤ s.LEN.toNat + 8 * n → Answered 1 t) ∧
    (s.ERR = false → s.LEN.toNat + 8 * n < 2 ^ 64 →
      (n ≤ s.din.length → Answered 0 t) ∧ (s.din.length < n → stBusy t = true ∧ t.respValid = false)) := by
  refine ⟨fun hE => ?_, fun hE hn => ?_, fun hE hn => ⟨fun hdin => ?_, fun hdin => ?_⟩⟩
  · cases (exec_write_of_failed hE n).symm.trans h
    exact answered_raiseException .failed s
  · cases (exec_write_of_overflow hE hn).symm.trans h
    exact answered_raiseException .overflowError s
  · rcases exec_write_next h with ⟨hrefused, -⟩ | ⟨-, -, hshort, -⟩ | ⟨-, -, -, c, -, rfl⟩
    · simp [hE, counterOverflows_eq_false_iff.2 hn] at hrefused
    · omega
    · exact ⟨rfl, rfl, rfl⟩
  · cases (exec_write_of_short hE (counterOverflows_eq_false_iff.2 hn) hdin).symm.trans h
    exact ⟨rfl, rfl⟩

theorem exec_digest_response {s t : State} (h : exec .digest s = .next t) :
    (s.ERR = true → Answered 3 t) ∧ (s.ERR = false → Answered 0 t) := by
  rcases execDigest_next h with ⟨hE, rfl⟩ | ⟨hE, c, -, rfl⟩
  · exact ⟨fun _ => answered_raiseException .failed s, by simp [hE]⟩
  · exact ⟨by simp [hE], fun _ => ⟨rfl, rfl, rfl⟩⟩

/-- Settles O9: the decoder, then `ERR`, then the counter, then the payload decide the response. -/
theorem responsesFollowTheOrderOfChecks : Obligations.ResponsesFollowTheOrderOfChecks := by
  intro s t w rest hbusy hhost h
  have hexec {i : Instr} (hdecode : decodeWord w = .ok i) : exec i (acceptCommand rest s) = .next t :=
    (stepRunsDecodedCommand s w rest i hbusy hhost hdecode).symm.trans h
  refine ⟨fun hillegal => ?_, fun hw => ?_, fun hop => ?_, fun hw => ?_⟩
  · cases (step_of_illegalWord hbusy hhost hillegal).symm.trans h
    exact answered_raiseException .illegalCommand _
  · exact exec_reset_response (hexec (by rw [hw]; rfl))
  · exact exec_write_response (s := acceptCommand rest s) (hexec (decodeWord_of_opField_write hop))
  · exact exec_digest_response (s := acceptCommand rest s) (hexec (by rw [hw]; rfl))

/-! The counter (60_exceptions.md R114). -/

theorem not_answered_ok_raiseException (x : Exception) (s : State) : ¬ Answered 0 (raiseException x s) := by
  intro h
  have hcode : responseCode (exceptionResponse x) = 0 := h.resp
  cases x <;> cases hcode

/-- Answered OK, a WRITE has counted its length; otherwise the counter is as it was. -/
def CountsPayload (n : Nat) (s t : State) : Prop :=
  (¬ Answered 0 t ∧ t.LEN = s.LEN) ∨ (Answered 0 t ∧ t.LEN.toNat = s.LEN.toNat + 8 * n)

theorem CountsPayload.len_of_answered {n : Nat} {s t : State} (h : CountsPayload n s t) (ht : Answered 0 t) :
    t.LEN.toNat = s.LEN.toNat + 8 * n := by
  rcases h with ⟨hno, -⟩ | ⟨-, hlen⟩
  · exact absurd ht hno
  · exact hlen

theorem CountsPayload.len_or_answered {n : Nat} {s t : State} (h : CountsPayload n s t) :
    t.LEN = s.LEN ∨ Answered 0 t :=
  h.imp And.right And.left

theorem receivePayload_countsPayload {s t : State} {p : Pending} (hp : Accepted s p) (h : receivePayload p s = .next t) :
    CountsPayload p.n s t := by
  rcases receivePayload_next h with ⟨-, h⟩ | ⟨-, rfl⟩
  · obtain ⟨c, -, rfl⟩ := completeWrite_next h
    exact .inr ⟨⟨rfl, rfl, rfl⟩, toNat_advanceCounter hp.fits⟩
  · exact .inl ⟨fun h => (by cases h.atRest), rfl⟩

theorem exec_write_countsPayload {s t : State} {n : Nat} (h : exec (.write n) s = .next t) : CountsPayload n s t := by
  rcases execWrite_next h with ⟨-, rfl⟩ | ⟨-, -, rfl⟩ | ⟨hE, hover, hrecv⟩
  · exact .inl ⟨not_answered_ok_raiseException .failed s, rfl⟩
  · exact .inl ⟨not_answered_ok_raiseException .overflowError s, rfl⟩
  · exact receivePayload_countsPayload (.of_checks hE hover) hrecv

/-- A WRITE in progress that is not cut by `rst` counts its payload; `rst` gives no response. -/
theorem step_countsPayload_of_busy {s t : State} {p : Pending} (hs : Inv s) (hbusy : s.busy = some p)
    (h : step s = .next t) (ht : Answered 0 t) : t.LEN.toNat = s.LEN.toNat + 8 * p.n := by
  by_cases hrst : ∃ rest, s.host = .rst :: rest
  · obtain ⟨rest, hhost⟩ := hrst
    cases (step_of_rst hhost).symm.trans h
    cases ht.present
  · rw [step_of_busy hbusy (not_exists.1 hrst)] at h
    exact (receivePayload_countsPayload (.of_pendingOk (hs.pendingOk p hbusy)) h).len_of_answered ht

/-- Settles O42: WRITE counts its payload when it is answered OK, DIGEST leaves the counter, RESET and `rst` clear it. -/
theorem counterOnlyGrowsUntilReset : Obligations.CounterOnlyGrowsUntilReset := by
  intro s t hs h
  refine ⟨fun w n rest hbusy hhost hdecode ht => ?_, fun p hbusy => step_countsPayload_of_busy hs hbusy h, ?_⟩
  · rw [stepRunsDecodedCommand s w rest _ hbusy hhost hdecode] at h
    exact (exec_write_countsPayload h).len_of_answered ht
  rcases step_next h with ⟨rest, hhost, rfl⟩ | ⟨p, hbusy, -, hrecv⟩ | ⟨-, -, rfl⟩ | ⟨w, k, rest, hbusy, hhost, rfl⟩ |
    ⟨w, rest, i, hbusy, hhost, hdecode, hexec⟩ | ⟨w, rest, e, -, -, -, rfl⟩
  · exact .inr (.inr ⟨rfl, _, rest, hhost, .inl rfl⟩)
  · exact (receivePayload_countsPayload (.of_pendingOk (hs.pendingOk p hbusy)) hrecv).len_or_answered.imp_right
      fun ht => .inl ⟨ht, .inl ⟨p, hbusy⟩⟩
  · exact .inl rfl
  · exact .inr (.inr ⟨rfl, _, rest, hhost, .inr ⟨hbusy, .inl ⟨w, k, rfl⟩⟩⟩)
  · cases i with
    | reset =>
      cases hexec
      exact .inr (.inr ⟨rfl, _, rest, hhost, .inr ⟨hbusy, .inr ⟨w, rfl, hdecode⟩⟩⟩)
    | write n =>
      exact (exec_write_countsPayload hexec).len_or_answered.imp_right
        fun ht => .inl ⟨ht, .inr ⟨hbusy, w, n, rest, hhost, hdecode⟩⟩
    | digest => exact .inl (digestLeavesTheLiveEngine _ t hexec).1.len
  · exact .inl rfl

end Sys2Proof.Proofs
end

section
/-! SUPPORT. The message the engine has absorbed (42_engine_commands.md R97; 20_memory.md R31): every step carries it along, and
DIGEST returns the digest of it. -/

open Sys2Proof Sys2Proof.Machine Sys2Proof.Laws

namespace Sys2Proof.Proofs

/-! What keeps, extends and empties the absorbed message. -/

theorem absorbed_of_sameData {M : List Byte} {s t : State} (hdata : SameData s t) (h : Absorbed M s) : Absorbed M t where
  chain := hdata.chain.trans h.chain
  fill := by rw [hdata.fill, h.fill]
  valid := by rw [hdata.buf, h.valid]
  len := by rw [hdata.len, h.len]

theorem absorbed_nil_of_initial {t : State} (hchain : t.H = IV) (hfill : t.FILL = 0) (hlen : t.LEN = 0) :
    Absorbed [] t where
  chain := hchain
  fill := by rw [hfill]; rfl
  valid := memRead_zero_zero t.BUF
  len := by rw [hlen]; rfl

theorem holdsBytes_of_absorbed {M : List Byte} {s : State} (h : Absorbed M s) : HoldsBytes s (remainder M) := by
  refine ⟨?_, ?_⟩
  · rw [h.fill]
    exact Nat.mod_lt _ (by decide)
  · rw [h.fill, h.valid]

/-- A WRITE answered OK puts its payload behind the message. -/
theorem absorbed_of_writeEffect {M bytes left : List Byte} {s t : State} {n : Nat} (hn : bytes.length = n)
    (h : Absorbed M s) (ht : WriteEffect s n (remainder M) bytes left t) : Absorbed (M ++ bytes) t := by
  have hfill : t.FILL.toNat = (M ++ bytes).length % 64 := by
    rw [ht.fill, h.fill, List.length_append, hn, Nat.mod_add_mod]
  constructor
  · rw [ht.chain, h.chain, wholeBlocks_append M, compressAll_append]
  · exact hfill
  · rw [← hfill, ht.holds.2, ← remainder_append]
  · rw [ht.len, h.len, List.length_append, hn, Nat.mul_add]

theorem absorbed_of_receivePayload {M : List Byte} {s t : State} {p : Pending} (hp : Accepted s p) (h : Absorbed M s)
    (hstep : receivePayload p s = .next t) :
    Absorbed (if (takePayload p s).taken.length = p.n then M ++ (takePayload p s).taken else M) t := by
  rcases Nat.lt_or_ge (p.taken.length + s.din.length) p.n with hshort | henough
  · rw [if_neg fun hlen => absurd ((length_taken_eq_iff hp.takenLe).1 hlen) (by omega)]
    cases (receivePayload_of_short hshort).symm.trans hstep
    exact absorbed_of_sameData (sameData_wait ..) h
  · have hlen := (length_taken_eq_iff hp.takenLe).2 henough
    obtain ⟨t', hstep', ht'⟩ := receivePayload_effect hp (holdsBytes_of_absorbed h) henough
    cases hstep'.symm.trans hstep
    rw [if_pos hlen]
    rw [← taken_takePayload hp.takenLe] at ht'
    exact absorbed_of_writeEffect hlen h ht'

theorem absorbed_of_exec_write {M : List Byte} {s t : State} {n : Nat} (h : Absorbed M s)
    (hexec : exec (.write n) s = .next t) :
    Absorbed (if s.ERR || counterOverflows s.LEN n || decide (s.din.length < n) then M else M ++ s.din.take n) t := by
  rcases exec_write_next hexec with ⟨hrefused, x, -, rfl⟩ | ⟨-, -, hshort, rfl⟩ | ⟨hE, hover, henough, -⟩
  · rw [if_pos (by rw [(Bool.or_eq_true_iff ..).2 hrefused, Bool.true_or])]
    exact absorbed_of_sameData (sameData_raiseException x s) h
  · rw [if_pos (by rw [decide_eq_true hshort, Bool.or_true])]
    exact absorbed_of_sameData (sameData_wait ..) h
  · obtain ⟨t', hexec', ht'⟩ := exec_write_effect (holdsBytes_of_absorbed h) hE hover henough
    cases hexec'.symm.trans hexec
    rw [if_neg (by simp [hE, hover, henough])]
    exact absorbed_of_writeEffect (by rw [List.length_take, min_eq_left henough]) h ht'

/-! The message after a step, one equation per thing the host can present. -/

theorem messageAfter_of_rst {M : List Byte} {s : State} {rest : List HostEvent} (hhost : s.host = .rst :: rest) :
    messageAfter M s = [] := by
  cases hbusy : s.busy with
  | none => rw [messageAfter, hbusy, hhost]
  | some p => rw [messageAfter, hbusy, hhost]

theorem messageAfter_of_busy {M : List Byte} {s : State} {p : Pending} (hbusy : s.busy = some p)
    (hhost : ∀ rest, s.host ≠ .rst :: rest) :
    messageAfter M s = if (takePayload p s).taken.length = p.n then M ++ (takePayload p s).taken else M := by
  rw [messageAfter, hbusy]
  split
  next rest _ h => exact absurd h (hhost rest)
  next hq _ => cases hq; rfl
  all_goals contradiction

theorem messageAfter_of_nothing {M : List Byte} {s : State} (hbusy : s.busy = none) (hhost : s.host = []) :
    messageAfter M s = M := by
  rw [messageAfter, hbusy, hhost]

theorem messageAfter_of_cmdCut {M : List Byte} {s : State} {w : CommandWord} {k : Nat} {rest : List HostEvent}
    (hbusy : s.busy = none) (hhost : s.host = .cmdCut w k :: rest) : messageAfter M s = [] := by
  rw [messageAfter, hbusy, hhost]

section Command

variable {M : List Byte} {s : State} {w : CommandWord} {rest : List HostEvent} (hbusy : s.busy = none)
  (hhost : s.host = .cmd w :: rest)
include hbusy hhost

theorem messageAfter_of_reset (hdecode : decodeWord w = .ok .reset) : messageAfter M s = [] := by
  simp only [messageAfter, hbusy, hhost, hdecode]

theorem messageAfter_of_write {n : Nat} (hdecode : decodeWord w = .ok (.write n)) :
    messageAfter M s =
      if s.ERR || counterOverflows s.LEN n || decide (s.din.length < n) then M else M ++ s.din.take n := by
  simp only [messageAfter, hbusy, hhost, hdecode]

theorem messageAfter_of_digest (hdecode : decodeWord w = .ok .digest) : messageAfter M s = M := by
  simp only [messageAfter, hbusy, hhost, hdecode]

theorem messageAfter_of_illegalWord {e : DecodeError} (hdecode : decodeWord w = .error e) : messageAfter M s = M := by
  simp only [messageAfter, hbusy, hhost, hdecode]

end Command

/-- Settles O44: `rst`, a cut command and RESET empty the message, a completing WRITE extends it, all else keeps the data. -/
theorem stepTracksTheAbsorbedMessage : Obligations.StepTracksTheAbsorbedMessage := by
  intro M s t hs h hstep
  rcases step_next hstep with ⟨rest, hhost, rfl⟩ | ⟨p, hbusy, hhost, hrecv⟩ | ⟨hbusy, hhost, rfl⟩ |
    ⟨w, k, rest, hbusy, hhost, rfl⟩ | ⟨w, rest, i, hbusy, hhost, hdecode, hexec⟩ |
    ⟨w, rest, e, hbusy, hhost, hdecode, rfl⟩
  · rw [messageAfter_of_rst hhost]
    exact absorbed_nil_of_initial rfl rfl rfl
  · rw [messageAfter_of_busy hbusy hhost]
    exact absorbed_of_receivePayload (.of_pendingOk (hs.pendingOk p hbusy)) h hrecv
  · rw [messageAfter_of_nothing hbusy hhost]
    exact h
  · rw [messageAfter_of_cmdCut hbusy hhost]
    exact absorbed_nil_of_initial rfl rfl rfl
  · have haccept : Absorbed M (acceptCommand rest s) := absorbed_of_sameData (sameData_acceptCommand rest s) h
    cases i with
    | reset =>
      rw [messageAfter_of_reset hbusy hhost hdecode]
      cases hexec
      exact absorbed_nil_of_initial rfl rfl rfl
    | write n =>
      rw [messageAfter_of_write hbusy hhost hdecode]
      exact absorbed_of_exec_write (s := acceptCommand rest s) haccept hexec
    | digest =>
      rw [messageAfter_of_digest hbusy hhost hdecode]
      exact absorbed_of_sameData (digestLeavesTheLiveEngine _ t hexec).1 haccept
  · rw [messageAfter_of_illegalWord hbusy hhost hdecode]
    exact absorbed_of_sameData (sameData_raiseException _ _) (absorbed_of_sameData (sameData_acceptCommand rest s) h)

/-- Settles O47: NEW and RESET both leave the initial registers. -/
theorem resetAbsorbsNothing : Obligations.ResetAbsorbsNothing :=
  ⟨absorbed_nil_of_initial rfl rfl rfl,
    fun s h => ⟨_, execReset_eq s, inv_execReset h, absorbed_nil_of_initial rfl rfl rfl⟩⟩

/-! The padded message (20_memory.md R31). -/

theorem length_padded (M : List Byte) (z : Nat) (LEN : BitVec 64) :
    (M ++ [0x80] ++ zeros z ++ be64Bytes LEN).length = M.length + z + 9 := by
  simp only [List.length_append, List.length_singleton, length_zeros, length_be64Bytes]
  omega

/-- Settles O26: the zero run is the one of at most 63 bytes that makes the length a multiple of 64. -/
theorem paddedMessageIsWholeBlocks : Obligations.PaddedMessageIsWholeBlocks := by
  intro M
  have hz : padZeros M.length = (55 + 64 - M.length % 64) % 64 := rfl
  refine ⟨?_, ?_, fun z hlt => ?_⟩
  · rw [paddedMessage, length_padded]
    omega
  · omega
  · rw [length_padded]
    omega

theorem padZeros_of_le {n : Nat} (h : n % 64 ≤ 55) : padZeros n = 55 - n % 64 := by
  rw [padZeros]
  omega

theorem padZeros_of_ge {n : Nat} (h : 56 ≤ n % 64) : padZeros n = (63 - n % 64) + 56 := by
  rw [padZeros]
  omega

theorem zeros_add (m n : Nat) : zeros (m + n) = zeros m ++ zeros n := List.replicate_add ..

/-- The blocks of the padded message are the whole blocks of the message and then the final blocks of what is left. -/
theorem wholeBlocks_paddedMessage (M : List Byte) :
    wholeBlocks (paddedMessage M) =
      wholeBlocks M ++ finalBlocks (remainder M) (BitVec.ofNat 64 (8 * M.length)) := by
  have hr : (remainder M).length = M.length % 64 := length_remainder M
  have hlt : M.length % 64 < 64 := Nat.mod_lt _ (by decide)
  rw [paddedMessage, List.append_assoc, List.append_assoc, wholeBlocks_append M]
  congr 1
  rw [finalBlocks]
  split_ifs with hfit
  · rw [padZeros_of_le (hr ▸ hfit), ← hr, ← List.append_assoc, ← List.append_assoc]
    exact wholeBlocks_eq_singleton (by rw [length_padded]; omega)
  · rw [padZeros_of_ge (by omega), zeros_add, ← hr]
    have hfirst : (remainder M ++ [0x80] ++ zeros (63 - (remainder M).length)).length = 64 := by
      simp only [List.length_append, List.length_singleton, length_zeros]
      omega
    have hsecond (LEN : BitVec 64) : (zeros 56 ++ be64Bytes LEN).length = 64 := rfl
    rw [List.append_assoc (zeros _), ← List.append_assoc, ← List.append_assoc, wholeBlocks_append,
      wholeBlocks_eq_singleton hfirst, remainder_eq_nil hfirst, List.nil_append, wholeBlocks_eq_singleton (hsecond _)]
    rfl

/-! DIGEST of the absorbed message (R96, R97). -/

/-- Settles O45: the final blocks DIGEST compresses are those the padded message has after the whole blocks of the message. -/
theorem digestReturnsTheMessageDigest : Obligations.DigestReturnsTheMessageDigest := by
  intro M s h hE
  have hLEN : s.LEN = BitVec.ofNat 64 (8 * M.length) := by rw [← h.len, BitVec.ofNat_toNat, BitVec.setWidth_eq]
  have hdigest : compressAll s.H (finalBlocks (remainder M) s.LEN) = compressAll IV (wholeBlocks (paddedMessage M)) := by
    rw [wholeBlocks_paddedMessage, compressAll_append, h.chain, hLEN]
  refine ⟨_, digestCompressesTheFinalBlocks s _ (holdsBytes_of_absorbed h) hE, ⟨rfl, rfl, rfl⟩, ?_,
    absorbed_of_sameData (s := s) ⟨rfl, rfl, rfl, rfl⟩ h⟩
  rw [sha1, ← hdigest]

/-- Settles O21: the first DIGEST leaves the registers it reads. -/
theorem digestTwiceReturnsTheSameBytes : Obligations.DigestTwiceReturnsTheSameBytes := by
  intro s t hE h
  rcases execDigest_next h with ⟨hE', -⟩ | ⟨-, c, hbody, -⟩
  · cases hE.symm.trans hE'
  · obtain ⟨v, hv⟩ := holdsBytes_of_padAndFinish hbody
    cases (digestCompressesTheFinalBlocks s v hv hE).symm.trans h
    exact ⟨_, digestCompressesTheFinalBlocks _ v hv hE, ⟨rfl, rfl, rfl⟩, rfl, ⟨rfl, rfl, rfl, rfl⟩, hE⟩

/-! A sequence of WRITEs and a DIGEST. -/

theorem run_succ_of_step {M : Host.Core} {s t : M.State} (h : M.step s = .next t) (k : Nat) :
    M.run (k + 1) s = M.run k t := by
  rw [Host.Core.run, h]

/-- The engine has absorbed `M`, has not failed and is at rest, with `host` and `din` presented to it. -/
structure Ready (M : List Byte) (host : List HostEvent) (din : List Byte) (s : State) : Prop where
  absorbed : Absorbed M s
  err : s.ERR = false
  atRest : s.busy = none
  host : s.host = host
  din : s.din = din

theorem step_of_ready_write {M p more : List Byte} {rest : List HostEvent} {s : State}
    (h : Ready M (.cmd (encode (.write p.length)) :: rest) (p ++ more) s) (hlen : (M ++ p).length < 2 ^ 61) :
    ∃ t, step s = .next t ∧ Ready (M ++ p) rest more t := by
  rw [List.length_append] at hlen
  have hwf : (Instr.write p.length).wf = true := decide_eq_true (by omega)
  have hover : counterOverflows s.LEN p.length = false := counterOverflows_eq_false_iff.2 (by rw [h.absorbed.len]; omega)
  have hpayload : (acceptCommand rest s).din = p ++ more := h.din
  have haccept : Absorbed M (acceptCommand rest s) := absorbed_of_sameData (sameData_acceptCommand rest s) h.absorbed
  obtain ⟨t, hexec, ht⟩ := exec_write_effect (n := p.length) (holdsBytes_of_absorbed haccept) h.err hover
    (by rw [hpayload, List.length_append]; omega)
  rw [hpayload, List.take_left, List.drop_left] at ht
  exact ⟨t, (stepRunsDecodedCommand s _ rest _ h.atRest h.host (decodeInvertsEncode _ hwf)).trans hexec,
    absorbed_of_writeEffect rfl haccept ht, ht.err.trans h.err, ht.answered.atRest, ht.host, ht.din⟩

theorem step_of_ready_digest {M more : List Byte} {rest : List HostEvent} {s : State}
    (h : Ready M (.cmd (encode .digest) :: rest) more s) :
    ∃ t, step s = .next t ∧ Answered 0 t ∧ t.dout = digestPort (sha1 M) ∧ Absorbed M t ∧ t.host = rest ∧ t.din = more := by
  obtain ⟨t, hexec, hans, hdout, habs⟩ := digestReturnsTheMessageDigest M (acceptCommand rest s)
    (absorbed_of_sameData (sameData_acceptCommand rest s) h.absorbed) h.err
  obtain ⟨-, -, hhost, hdin, -⟩ := digestLeavesTheLiveEngine _ t hexec
  exact ⟨t, (stepRunsDecodedCommand s _ rest _ h.atRest h.host (decodeInvertsEncode .digest rfl)).trans hexec, hans,
    hdout, habs, hhost, hdin.trans h.din⟩

theorem run_of_ready {M more : List Byte} {ps : List (List Byte)} {rest : List HostEvent} {s : State}
    (h : Ready M (ps.map (fun p => HostEvent.cmd (encode (.write p.length))) ++ .cmd (encode .digest) :: rest)
      (ps.flatten ++ more) s) (hlen : (M ++ ps.flatten).length < 2 ^ 61) :
    ∃ t, Host.Core.run Sys2Proof.core (ps.length + 1) s = .next t ∧ Answered 0 t ∧
      t.dout = digestPort (sha1 (M ++ ps.flatten)) ∧ Absorbed (M ++ ps.flatten) t ∧ t.host = rest ∧ t.din = more := by
  induction ps generalizing M s with
  | nil =>
    obtain ⟨t, hstep, ht⟩ := step_of_ready_digest h
    rw [List.flatten_nil, List.append_nil]
    exact ⟨t, run_succ_of_step (M := Sys2Proof.core) hstep 0, ht⟩
  | cons p ps ih =>
    rw [List.flatten_cons, ← List.append_assoc] at hlen ⊢
    rw [List.map_cons, List.cons_append, List.flatten_cons, List.append_assoc] at h
    obtain ⟨t, hstep, ht⟩ := step_of_ready_write h (by rw [List.length_append] at hlen; omega)
    rw [List.length_cons, run_succ_of_step (M := Sys2Proof.core) hstep]
    exact ih ht hlen

/-- Settles O46, by induction on the payloads from any message already absorbed. -/
theorem writesThenDigestReturnTheDigest : Obligations.WritesThenDigestReturnTheDigest := by
  intro s ps rest more _ habs hE hbusy hlen hhost hdin
  exact run_of_ready (M := []) ⟨habs, hE, hbusy, hhost, hdin⟩ hlen

/-- Settles O35, by computing the fields of the reset state. -/
theorem resetStateHasItsValues : Obligations.ResetStateHasItsValues :=
  ⟨rfl, rfl, rfl, rfl, rfl, rfl, rfl, rfl, rfl⟩

/-! The hexadecimal digest (42_engine_commands.md R98). -/

theorem hexDigest_cons (b : Byte) (D : List Byte) :
    hexDigest (b :: D) = hexDigit (b.toNat / 16) :: hexDigit (b.toNat % 16) :: hexDigest D := rfl

theorem length_hexDigest (D : List Byte) : (hexDigest D).length = 2 * D.length := by
  induction D with
  | nil => rfl
  | cons b D ih =>
    rw [hexDigest_cons, List.length_cons, List.length_cons, List.length_cons, ih]
    omega

/-- Byte `k` is written at the characters `2k` and `2k + 1`. -/
theorem getElem?_hexDigest {D : List Byte} {k : Nat} {b : Byte} (h : D[k]? = some b) :
    (hexDigest D)[2 * k]? = some (hexDigit (b.toNat / 16)) ∧
      (hexDigest D)[2 * k + 1]? = some (hexDigit (b.toNat % 16)) := by
  induction D generalizing k with
  | nil => cases h
  | cons a D ih =>
    rw [hexDigest_cons]
    cases k with
    | zero => cases h; exact ⟨rfl, rfl⟩
    | succ k => exact ih h

theorem hexDigit_eq {v : Nat} (hv : v < 16) : some (hexDigit v) = "0123456789abcdef".toList[v]? := by
  have hlen : v < "0123456789abcdef".toList.length := hv
  rw [hexDigit, List.getD_eq_getElem?_getD, List.getElem?_eq_getElem hlen, Option.getD_some]

theorem toNat_high_half (b : Byte) : (b.extractLsb' 4 4).toNat = b.toNat / 16 := by
  have hb : b.toNat < 256 := b.isLt
  rw [BitVec.extractLsb'_toNat, Nat.shiftRight_eq_div_pow]
  omega

theorem toNat_low_half (b : Byte) : (b.extractLsb' 0 4).toNat = b.toNat % 16 := BitVec.extractLsb'_toNat ..

/-- Settles O34: two digits per byte, and the digest has twenty bytes. -/
theorem hexDigestHasFortyCharacters : Obligations.HexDigestHasFortyCharacters := by
  intro X
  refine ⟨by rw [length_hexDigest, length_serialize], fun k b hb => ?_⟩
  have hlt : b.toNat < 256 := b.isLt
  obtain ⟨hhigh, hlow⟩ := getElem?_hexDigest hb
  rw [toNat_high_half, toNat_low_half, ← hexDigit_eq (by omega), ← hexDigit_eq (by omega)]
  exact ⟨hhigh, hlow⟩

end Sys2Proof.Proofs
end

section
/-! SUPPORT. What a step leaves of the chaining value and the trace (10_state.md R10, R23), and of the cells at or above `FILL`
(10_state.md R13; 40_block_buffer.md R66). -/

open Sys2Proof Sys2Proof.Machine Sys2Proof.Laws

namespace Sys2Proof.Proofs

/-! The chaining value changes only by the blocks recorded as live. -/

/-- `t` has the events of `s` and then some, and its `H` is that of `s` with the blocks of the live ones compressed in. -/
def ChainFollowsTrace (s t : State) : Prop :=
  ∃ es : List Event, t.trace = s.trace ++ es ∧
    t.H = compressAll s.H ((es.filter fun e => e.side = .live).map Event.block)

theorem ChainFollowsTrace.of_eq {s t : State} (hH : t.H = s.H) (htrace : t.trace = s.trace) : ChainFollowsTrace s t :=
  ⟨[], by rw [htrace, List.append_nil], hH⟩

/-- The trace is followed, whatever else could have happened with the same events. -/
theorem ChainFollowsTrace.or {s t : State} (h : ChainFollowsTrace s t) (P : List Event → Prop) :
    ∃ es : List Event, t.trace = s.trace ++ es ∧
      (t.H = compressAll s.H ((es.filter fun e => e.side = .live).map Event.block) ∨ P es) :=
  h.imp fun _ => And.imp_right .inl

/-- The blocks of live events are those they were made from. -/
theorem live_blocks_of_eventsOf (bs : List (List Byte)) :
    ((eventsOf .live bs).filter fun e => e.side = .live).map Event.block = bs := by
  rw [List.filter_eq_self.2 fun e he => decide_eq_true (side_of_mem_eventsOf he), eventsOf, List.map_map]
  exact List.map_id bs

theorem receivePayload_chain {p : Pending} {s t : State} (h : receivePayload p s = .next t) : ChainFollowsTrace s t := by
  rcases receivePayload_next h with ⟨-, h⟩ | ⟨-, rfl⟩
  · obtain ⟨c, hin, rfl⟩ := completeWrite_next h
    obtain ⟨bs, hH, htrace⟩ := bbInput_chain hin
    exact ⟨eventsOf .live bs, htrace, by rw [live_blocks_of_eventsOf]; exact hH⟩
  · exact .of_eq rfl rfl

theorem exec_write_chain {n : Nat} {s t : State} (h : exec (.write n) s = .next t) : ChainFollowsTrace s t := by
  rcases execWrite_next h with ⟨-, rfl⟩ | ⟨-, -, rfl⟩ | ⟨-, -, hrecv⟩
  · exact .of_eq rfl rfl
  · exact .of_eq rfl rfl
  · exact receivePayload_chain hrecv

theorem exec_digest_chain {s t : State} (h : exec .digest s = .next t) : ChainFollowsTrace s t := by
  obtain ⟨hdata, -, -, -, es, htrace, hside, -⟩ := digestLeavesTheLiveEngine s t h
  have hnone : es.filter (fun e => e.side = .live) = [] := List.filter_eq_nil_iff.2 fun e he => by simp [hside e he]
  exact ⟨es, htrace, by rw [hnone]; exact hdata.chain⟩

/-- Settles O41: `rst`, a cut command and RESET load `IV`; everything else follows the trace. -/
theorem onlyResetsAndCompressWriteTheChain : Obligations.OnlyResetsAndCompressWriteTheChain := by
  intro s t h
  rcases step_next h with ⟨rest, hhost, rfl⟩ | ⟨p, -, -, hrecv⟩ | ⟨-, -, rfl⟩ | ⟨w, k, rest, -, hhost, rfl⟩ |
    ⟨w, rest, i, -, hhost, hdecode, hexec⟩ | ⟨w, rest, e, -, -, -, rfl⟩
  · exact ⟨[], (List.append_nil _).symm, .inr ⟨rfl, rfl, _, rest, hhost, .inl rfl⟩⟩
  · exact (receivePayload_chain hrecv).or _
  · exact ChainFollowsTrace.or (.of_eq rfl rfl) _
  · exact ⟨[], (List.append_nil _).symm, .inr ⟨rfl, rfl, _, rest, hhost, .inr (.inl ⟨w, k, rfl⟩)⟩⟩
  · cases i with
    | reset =>
      cases hexec
      exact ⟨[], (List.append_nil _).symm, .inr ⟨rfl, rfl, _, rest, hhost, .inr (.inr ⟨w, rfl, hdecode⟩)⟩⟩
    | write n => exact (exec_write_chain (s := acceptCommand rest s) hexec).or _
    | digest => exact (exec_digest_chain (s := acceptCommand rest s) hexec).or _
  · exact ChainFollowsTrace.or (.of_eq rfl rfl) _

/-! The cells at or above `FILL`. -/

/-- The two memories read the same below `n`. -/
def AgreeBelow (n : Nat) (m m' : List Host.Cell) : Prop := ∀ a < n, Memory.read m' a = Memory.read m a

theorem AgreeBelow.read_valid {n : Nat} {m m' : List Host.Cell} {v : List Byte} (h : AgreeBelow n m m')
    (hv : memRead m 0 n = .ok v) : memRead m' 0 n = .ok v :=
  memRead_congr (fun a _ ha => h a (by omega)) hv

theorem AgreeBelow.of_memRead {n : Nat} {m m' : List Host.Cell} {v : List Byte} (hv : memRead m 0 n = .ok v)
    (hv' : memRead m' 0 n = .ok v) : AgreeBelow n m m' := by
  obtain ⟨-, -, hcell⟩ := memRead_ok_iff.1 hv
  obtain ⟨-, -, hcell'⟩ := memRead_ok_iff.1 hv'
  intro a ha
  rw [← Nat.zero_add a, hcell a ha, hcell' a ha]

/-- Bytes stored at `n` extend the agreement to their end. -/
theorem AgreeBelow.writeBytes {n : Nat} {m m' : List Host.Cell} (h : AgreeBelow n m m') (bytes : List Byte) :
    AgreeBelow (n + bytes.length) (Memory.writeBytes m n bytes) (Memory.writeBytes m' n bytes) := by
  intro a ha
  rw [read_writeBytes, read_writeBytes]
  split_ifs with hin
  · rfl
  · exact h a (by omega)

/-- BB.INPUT reads no cell at or above `FILL`, and what it leaves below the new `FILL` does not depend on one. -/
theorem bbInput_ignores_stale {c c1 : Context} {bytes : List Byte} {m : List Host.Cell} (hm : AgreeBelow c.FILL c.BUF m)
    (h : bbInput bytes c = .ok c1) :
    ∃ m1, bbInput bytes { c with BUF := m } = .ok { c1 with BUF := m1 } ∧ AgreeBelow c1.FILL c1.BUF m1 := by
  rcases Nat.lt_or_ge (c.FILL + bytes.length) 64 with hshort | hfull
  · cases (bbInput_of_short hshort).symm.trans h
    exact ⟨_, bbInput_of_short (c := { c with BUF := m }) hshort, hm.writeBytes bytes⟩
  · obtain ⟨⟨v, hv⟩, hF, -⟩ := bbInput_ok_of_full hfull h
    obtain ⟨c2, hin, h2⟩ := bbInput_compresses bytes hF hv
    obtain ⟨c3, hin', h3⟩ := bbInput_compresses (c := { c with BUF := m }) bytes hF (hm.read_valid hv)
    cases hin.symm.trans h
    have hfill : c3.FILL = c1.FILL := h3.fill.trans h2.fill.symm
    refine ⟨c3.BUF, hin'.trans (congrArg Except.ok ?_), .of_memRead h2.valid (hfill ▸ h3.valid)⟩
    cases c1
    cases c3
    rw [Context.mk.injEq]
    exact ⟨h3.chain.trans h2.chain.symm, rfl, hfill, h3.side.trans h2.side.symm, h3.trace.trans h2.trace.symm⟩

/-- `f` answers from a state whatever stands in the cells at or above `FILL`, and answers the same but for such cells. -/
def IgnoresStale (f : State → Host.Outcome State Fault Refusal) : Prop :=
  ∀ (s t : State) (m : List Host.Cell), AgreeBelow s.FILL.toNat s.BUF m → f s = .next t →
    ∃ m', f { s with BUF := m } = .next { t with BUF := m' } ∧ AgreeBelow t.FILL.toNat t.BUF m'

theorem receivePayload_ignoresStale (p : Pending) : IgnoresStale (receivePayload p) := by
  intro s t m hm h
  rcases receivePayload_next h with ⟨hlen, h⟩ | ⟨hlen, rfl⟩
  · obtain ⟨c, hin, rfl⟩ := completeWrite_next h
    obtain ⟨m', hin', hm'⟩ := bbInput_ignores_stale hm hin
    refine ⟨m', ?_, fun a ha => hm' a (ha.trans_le ((BitVec.toNat_ofNat ..).trans_le (Nat.mod_le ..)))⟩
    rw [receivePayload, if_pos (by exact hlen)]
    exact completeWrite_of_bbInput (s := { s with BUF := m, din := leavePayload p s }) hin'
  · refine ⟨m, ?_, hm⟩
    rw [receivePayload, if_neg (by exact hlen)]
    rfl

theorem exec_write_ignoresStale (n : Nat) : IgnoresStale (exec (.write n)) := by
  intro s t m hm h
  rcases execWrite_next h with ⟨hE, rfl⟩ | ⟨hE, hover, rfl⟩ | ⟨hE, hover, hrecv⟩
  · exact ⟨m, exec_write_of_failed (s := { s with BUF := m }) hE n, hm⟩
  · exact ⟨m, exec_write_of_overflow (s := { s with BUF := m }) hE (counterOverflows_eq_true_iff.1 hover), hm⟩
  · rw [exec_write_of_accepted (s := { s with BUF := m }) hE hover]
    exact receivePayload_ignoresStale _ s t m hm hrecv

theorem exec_digest_ignoresStale : IgnoresStale (exec .digest) := by
  intro s t m hm h
  rcases execDigest_next h with ⟨hE, rfl⟩ | ⟨hE, c, hbody, -⟩
  · exact ⟨m, exec_digest_of_failed (s := { s with BUF := m }) hE, hm⟩
  · obtain ⟨v, hF, hv⟩ := holdsBytes_of_padAndFinish hbody
    cases (digestCompressesTheFinalBlocks s v ⟨hF, hv⟩ hE).symm.trans h
    exact ⟨m, digestCompressesTheFinalBlocks { s with BUF := m } v ⟨hF, hm.read_valid hv⟩ hE, hm⟩

/-- With `FILL = 0` any two buffers agree on what is valid. -/
theorem agreeBelow_zero (m m' : List Host.Cell) : AgreeBelow (0 : BitVec 7).toNat m m' :=
  fun _ ha => absurd ha (Nat.not_lt_zero _)

theorem exec_ignoresStale (i : Instr) : IgnoresStale (exec i) := by
  cases i with
  | reset =>
    intro s t m _ h
    cases h
    exact ⟨m, rfl, agreeBelow_zero _ _⟩
  | write n => exact exec_write_ignoresStale n
  | digest => exact exec_digest_ignoresStale

theorem step_ignoresStale : IgnoresStale step := by
  intro s t m hm h
  rcases step_next h with ⟨rest, hhost, rfl⟩ | ⟨p, hbusy, hhost, hrecv⟩ | ⟨hbusy, hhost, rfl⟩ |
    ⟨w, k, rest, hbusy, hhost, rfl⟩ | ⟨w, rest, i, hbusy, hhost, hdecode, hexec⟩ |
    ⟨w, rest, e, hbusy, hhost, hdecode, rfl⟩
  · exact ⟨m, step_of_rst (s := { s with BUF := m }) hhost, agreeBelow_zero _ _⟩
  · rw [step_of_busy (s := { s with BUF := m }) hbusy hhost]
    exact receivePayload_ignoresStale p s t m hm hrecv
  · exact ⟨m, step_of_nothing (s := { t with BUF := m }) hbusy hhost, hm⟩
  · exact ⟨m, step_of_cmdCut (s := { s with BUF := m }) hbusy hhost, agreeBelow_zero _ _⟩
  · rw [stepRunsDecodedCommand { s with BUF := m } w rest i hbusy hhost hdecode]
    exact exec_ignoresStale i (acceptCommand rest s) t m hm hexec
  · exact ⟨m, step_of_illegalWord (s := { s with BUF := m }) hbusy hhost (illegalWord_of_decodeWord_error hdecode), hm⟩

/-- Settles O39: the second state is the first with another buffer that agrees below `FILL`. -/
theorem staleCellsInfluenceNothing : Obligations.StaleCellsInfluenceNothing := by
  intro s s' t _ hsame h
  obtain ⟨m', hstep, hm'⟩ := step_ignoresStale s t s'.BUF hsame.below h
  rw [← hsame.rest] at hstep
  exact ⟨_, hstep, rfl, hm', rfl⟩

end Sys2Proof.Proofs
end
